-- ==== Sys2Proof/Word.lean ====
section
/-! DEFINITION. The two widths of the block: a byte is 8 bits and a word is 32 bits (spec 00_scope.md R8). -/

namespace Sys2Proof

/-- A byte, 8 bits (R8). -/
abbrev Byte := BitVec 8

/-- A word, "canonical 32-bit unsigned transfer unit" (R14). -/
abbrev Word := BitVec 32

end Sys2Proof
end

