-- ==== Sys2Proof/Machine/Operands.lean ====
section
/-! DEFINITION. Operand forms: bytes of a word, LE32 and LEBYTES (spec 00_scope.md R8, R10), the fields of a key byte
(41_match_encode.md R156, R157), payloads and the rebuilding of a word (R151, R158, R159). Pure functions, shared by the
encoder of command operands, both channels and the bulk path. -/

namespace Sys2Proof.Machine

/-- Byte `j` of a word: `w[8j+7:8j]` (R8). -/
def byteOf (w : Word) (j : Nat) : Byte := w.extractLsb' (8 * j) 8

/-- `LEBYTES(w, n)`: the `n` low-order bytes of `w`, low byte first (R10). -/
def leBytes (w : Word) (n : Nat) : List Byte := (List.range n).map (byteOf w)

/-- `LE32(b0, b1, b2, b3)` (R10). -/
def le32 (b0 b1 b2 b3 : Byte) : Word :=
  b0.setWidth 32 ||| b1.setWidth 32 <<< 8 ||| b2.setWidth 32 <<< 16 ||| b3.setWidth 32 <<< 24

/-- The number a byte sequence spells low byte first: the sum of `zext_32(p[j]) << 8j` (R159's `v`). -/
def leWord : List Byte → Word
  | [] => 0
  | b :: p => b.setWidth 32 ||| leWord p <<< 8

/-- `MASK(d)`: ones in the `d` low-order bytes (R151). -/
def maskLow : Nat → Word
  | 0 => 0x00000000
  | 1 => 0x000000FF
  | 2 => 0x0000FFFF
  | 3 => 0x00FFFFFF
  | _ => 0xFFFFFFFF

/-- The low 5 bits of a lead byte: a slot index or a strength (R91, R92, R261). -/
def low5 (b : Byte) : BitVec 5 := b.setWidth 5

/-- Bits 7:5 of a lead byte: the record class (R93). -/
def tagOf (b : Byte) : Nat := (b >>> 5).toNat

/-- `KeyPack(d, i) = ((d << 5) | i)[7:0]` (R156). -/
def keyPack (d i : Nat) : Byte := BitVec.ofNat 8 (d <<< 5 ||| i)

/-- `KeyUnpack(k)`: the difference, bits 7:5, and the index, bits 4:0 (R157). -/
def keyUnpack (k : Byte) : Nat × BitVec 5 := (tagOf k, low5 k)

/-- `Payload(w, d) = LEBYTES(w, d)` (R158). -/
def payload (w : Word) (d : Nat) : List Byte := leBytes w d

/-- `Rebuild(e, d, p)`, with `|p| = d`: the high bytes of `e`, the low `d` bytes from `p` (R159). -/
def rebuild (e : Word) (d : Nat) (p : List Byte) : Word := (e &&& ~~~ maskLow d) ||| leWord p

/-- The reset record: `0xC0 | strength`, then the word low byte first (R91). -/
def resetRecord (strength : BitVec 5) (w : Word) : List Byte :=
  (0xC0 ||| strength.setWidth 8) :: leBytes w 4

/-- The key record of slot `i` and difference `d` for the word `w` (R92). -/
def keyRecord (i d : Nat) (w : Word) : List Byte := keyPack d i :: payload w d

end Sys2Proof.Machine
end

