-- ==== Sys2Proof/Config.lean ====
section
/-! DEFINITION. The reset arguments of the block (spec 00_scope.md R7, 70_reset_and_hazards.md R340) and the
values the model names for `State.reset`. The spec leaves the four OPEN: every statement about the machine is
made over all of them, through `State.limits` and `State.resetWith`. -/

namespace Sys2Proof

/-- The arguments reset takes (R340). `none` is the spec's "unbounded" (R7). -/
structure Config where
  /-- `OUT_CAP`, capacity of the encoder output buffer in bytes: a natural, 0 allowed (R7, D14). -/
  outCap : Nat
  /-- `IN_CAP`, capacity of the decoder input queue in bytes, or unbounded (R7, D13). -/
  inCap : Option Nat
  /-- `BLK_MAX`, largest block the bulk path accepts in bytes: positive (`Config.Wf`) or unbounded (R7, D21). -/
  blkMax : Option Nat
  /-- `P_ENC_STRENGTH_INIT`, the encoder strength after reset, 0 to 31 (R7, D15). -/
  encStrengthInit : BitVec 5
  deriving DecidableEq, Repr

/-- The arguments reset may be given: `BLK_MAX` is "a positive natural number or unbounded" (R7); the other three rows of R7 are
the field types. -/
abbrev Config.Wf (c : Config) : Prop := c.blkMax ≠ some 0

/-- DESIGN CHOICE (log 6, unsafe for a claim about `State.reset` alone): the spec gives the parameters no value.
These are the standard start of its vectors (95_test_vectors.md 2.3 to 2.5): `OUT_CAP` 16, strength 5, and
`IN_CAP` and `BLK_MAX` unbounded. -/
def Config.default : Config :=
  { outCap := 16, inCap := none, blkMax := none, encStrengthInit := 5 }

end Sys2Proof
end

