-- ==== Sys2Proof/Machine/State.lean ====
section
/-! DEFINITION. The state of one block as plain data (spec 10_state.md), the state after reset, and the reasons a step can
stop. Counts and positions are naturals bounded by the invariant (R34, R38, log 7); a strength is 5 bits. -/

namespace Sys2Proof.Machine

/-- Every command returns exactly one of these (60_exceptions.md R300). -/
inductive Status where
  | ok
  | nullOrEmptyBuffer
  | invalidLength
  | outOfRange
  | invalidStrength
  | bufferFull
  | needMoreData
  | unsupportedEscapeInStream
  | malformedBoundary
  | invalidBackReference
  | reservedKey
  | inputFull
  deriving DecidableEq, Repr

/-- The result values of a command beside its status (30_encoding.md R103). -/
inductive Result where
  | nothing
  /-- ENC_WORD: the number of bytes written. -/
  | written (n : Nat)
  /-- DEC_WORD: the word. -/
  | word (w : Word)
  /-- ENC_READ_OUT, BLK_COMPRESS, BLK_DECOMPRESS: a byte sequence. -/
  | bytes (b : List Byte)
  /-- ENC_QUERY: `ENC_STRENGTH`, `ENC_POS`, `ENC_WIN.count`. -/
  | encRegs (strength : BitVec 5) (pos count : Nat)
  /-- DEC_QUERY: `DEC_STRENGTH`, `|DEC_IN|`, `DEC_WIN.count`. -/
  | decRegs (strength : BitVec 5) (queued count : Nat)
  deriving DecidableEq, Repr

/-- What the host receives for a command (R103, R300). -/
structure Reply where
  status : Status
  result : Result
  deriving DecidableEq, Repr

/-- A back-reference FIFO (R33). `slots` holds the words of the valid slots 0, 1, ..., `count - 1`; an invalid slot "holds no
value" and is absent (R35, log 7). -/
structure Fifo where
  /-- The valid slots, in slot order (32 bits each). -/
  slots : List Word
  /-- The slot the next insert overwrites once the FIFO is full (5 bits). -/
  oldest : Nat
  /-- The capacity `K = strength + 1` (6 bits, 1 to 32). -/
  cap : Nat
  deriving DecidableEq, Repr

/-- A FIFO of capacity `c` with no valid slot: what `WinClear` leaves (40_window.md R130). -/
def Fifo.empty (c : Nat) : Fifo := { slots := [], oldest := 0, cap := c }

/-- Written bytes of `ENC_OUT`, addresses strictly rising; an unlisted address holds no value (R46, log 8). -/
abbrev Memory := List Host.Cell

/-- The encoder channel (R36 to R38). -/
structure Encoder where
  /-- `ENC_STRENGTH`. -/
  strength : BitVec 5
  /-- `ENC_WIN`. -/
  win : Fifo
  /-- `ENC_OUT`. -/
  out : Memory
  /-- `ENC_POS`. -/
  pos : Nat
  deriving DecidableEq, Repr

/-- The decoder channel (R40 to R42). -/
structure Decoder where
  /-- `DEC_STRENGTH`. -/
  strength : BitVec 5
  /-- `DEC_WIN`. -/
  win : Fifo
  /-- `DEC_IN`, oldest byte first. -/
  input : List Byte
  deriving DecidableEq, Repr

/-- What a bulk command holds while it runs (R43, 44_bulk_block.md R259): the scratch FIFO, the bytes of the block not yet
read, and the result so far. -/
structure Scratch where
  /-- `BLK_WIN`. -/
  win : Fifo
  /-- The block from position `p` on. -/
  input : List Byte
  /-- The bytes of the result so far. -/
  out : List Byte
  deriving DecidableEq, Repr

/-- Between commands the bulk path holds nothing (R43, log 10). -/
def Scratch.idle : Scratch := { win := Fifo.empty 1, input := [], out := [] }

/-- The constants fixed at reset (R30, R39). `none` is "unbounded" (00_scope.md R7). -/
structure Limits where
  /-- `OUT_CAP`. -/
  outCap : Nat
  /-- `IN_CAP`. -/
  inCap : Option Nat
  /-- `BLK_MAX`, positive (`Limits.Wf`). -/
  blkMax : Option Nat
  deriving DecidableEq, Repr

/-- The host's side of the command interface: the model's own, no state of the block (R44, logs 1 and 5). -/
structure HostPort where
  /-- The bytes of the commands issued and not yet begun, in issue order (20_memory.md R70). -/
  pending : List Byte
  /-- The status and results of the last command that ended. -/
  reply : Option Reply
  deriving DecidableEq, Repr

/-- One block (10_state.md R30) and its host port. -/
structure State where
  enc : Encoder
  dec : Decoder
  blk : Scratch
  limits : Limits
  port : HostPort
  deriving DecidableEq, Repr

/-- A step stops with a fault. -/
inductive Fault where
  /-- Raised by ENC_READ_OUT when a byte below `ENC_POS` was never written. No run reaches it: every byte below `ENC_POS`
  has been written (R38, `Encoder.wf`). Safe: the spec gives such a byte no value (R46, log 8). -/
  | outputByteAbsent
  deriving DecidableEq, Repr

/-- A step is refused. -/
inductive Refusal where
  /-- An instruction the model gives no meaning; none is left. Safe. -/
  | notModelled (mnemonic : String)
  /-- Raised by the fetch of a command whose code R103 does not list: "A model has no constructor for it and refuses it at
  the boundary" (R104). Safe. -/
  | unlistedCommandCode (code : Byte)
  /-- Raised by the fetch of a command whose operands are not all at the port: no whole command was issued (log 4).
  Safe. -/
  | commandCutShort
  deriving DecidableEq, Repr

/-- The state right after reset with its arguments (70_reset_and_hazards.md R340, 10_state.md R46). -/
def State.resetWith (c : Config) : State :=
  { enc := { strength := c.encStrengthInit, win := Fifo.empty (c.encStrengthInit.toNat + 1), out := [], pos := 0 }
    dec := { strength := 0, win := Fifo.empty 1, input := [] }
    blk := Scratch.idle
    limits := { outCap := c.outCap, inCap := c.inCap, blkMax := c.blkMax }
    port := { pending := [], reply := none } }

/-- Reset with the arguments the model names (log 6). -/
def State.reset : State := State.resetWith Config.default

end Sys2Proof.Machine
end

