-- ==== Sys2Proof/Machine/Window.lean ====
section
/-! DEFINITION. The back-reference FIFO's operations and scan orders (spec 40_window.md R130 to R136). -/

namespace Sys2Proof.Machine

/-- `W.count`, the number of valid slots (R33, R34 (d)). -/
def Fifo.count (w : Fifo) : Nat := w.slots.length

/-- `WinClear(W, c)`: "empty the FIFO and give it capacity `c`" (R130). Nothing of the old FIFO is left. -/
def Fifo.clear (_ : Fifo) (c : Nat) : Fifo := Fifo.empty c

/-- `WinInsert(W, w)`: "append a word; once full, overwrite the oldest" (R131). -/
def Fifo.insert (f : Fifo) (w : Word) : Fifo :=
  if f.count < f.cap then { f with slots := f.slots ++ [w] }
  else { f with slots := f.slots.set f.oldest w, oldest := (f.oldest + 1) % f.cap }

/-- `WinRead(W, i)`: the word of slot `i`, `none` exactly where the slot is invalid, `i ≥ W.count` (R132, R35). -/
def Fifo.read (f : Fifo) (i : Nat) : Option Word := f.slots[i]?

/-- The two scan orders (R133, R134). -/
inductive ScanOrder where
  | slot
  | age
  deriving DecidableEq, Repr

/-- The slot numbers in the order a search visits them: `SLOT` (R133) or `AGE` (R134). -/
def Fifo.scanSlots (f : Fifo) : ScanOrder → List Nat
  | .slot => List.range f.count
  | .age => (List.range f.count).map fun j => (f.oldest + j) % f.cap

end Sys2Proof.Machine
end

