-- ==== Sys2Proof/Machine/Match.lean ====
section
/-! DEFINITION. The match-and-encode unit (spec 41_match_encode.md R150 to R155). -/

namespace Sys2Proof.Machine

/-- `Classify(x)`, the byteDifference of an exclusive-or (R150). -/
def classify (x : Word) : Nat :=
  if x = 0 then 0
  else if x ≤ 0x000000FF then 1
  else if x ≤ 0x0000FFFF then 2
  else if x ≤ 0x00FFFFFF then 3
  else 4

/-- The sentinel a search starts with: 5 in `SLOT` order, 4 in `AGE` order (R152). -/
def ScanOrder.sentinel : ScanOrder → Nat
  | .slot => 5
  | .age => 4

/-- The loop of `FindBestMatch` over the slots still to visit, from `(bestI, bestD)`: "only valid slots are visited", a strictly
smaller difference wins, an exact match stops (R152). -/
def scanBest (f : Fifo) (w : Word) : List Nat → Nat × Nat → Nat × Nat
  | [], best => best
  | i :: rest, best =>
    match f.read i with
    | none => scanBest f w rest best
    | some e =>
      let d := classify (w ^^^ e)
      let best' := if d < best.2 then (i, d) else best
      if d = 0 then best' else scanBest f w rest best'

/-- `FindBestMatch(W, w, order)`: the slot and the difference (R152). -/
def findBestMatch (f : Fifo) (w : Word) (o : ScanOrder) : Nat × Nat :=
  scanBest f w (f.scanSlots o) (0, o.sentinel)

end Sys2Proof.Machine
end

