-- ==== Sys2Proof/Syntax.lean ====
section
/-! DEFINITION. The instructions: one constructor for each of the 34 rows of spec/opcode_table.json, in the table's
order. The rows stand in four contexts whose byte values overlap: command codes at the host port (30_encoding.md
R103), lead bytes of the streaming format (R93), header bytes of a bulk block (R98) and key bytes of a bulk body
(R99). A record row is its lead byte; the bytes that follow it are read from the queue or block by its meaning. -/

namespace Sys2Proof

inductive Instr where
  -- streaming lead bytes, read by DEC_WORD at the head of DEC_IN (R93); `i` is the window slot, bits 4:0
  | keyD0 (i : BitVec 5)
  | keyD1 (i : BitVec 5)
  | keyD2 (i : BitVec 5)
  | keyD3 (i : BitVec 5)
  | keyD4 (i : BitVec 5)
  -- the whole reserved lead byte; its bits 4:0 are ignored (R222)
  | rsvdKeyD5 (b : Byte)
  -- `s` is the new strength, bits 4:0 (R220)
  | resetRec (s : BitVec 5)
  -- the whole escape lead byte; its bits 4:0 are ignored (R221)
  | escInStream (b : Byte)
  -- bulk header bytes, read by BLK_DECOMPRESS at the head of a block (R98); `h` is the whole header byte
  | blkHdr (s : BitVec 5)
  | blkHdrUnproduced20To3F (h : Byte)
  | blkHdrUnproduced40To7F (h : Byte)
  | blkHdrUnproduced80ToBF (h : Byte)
  | blkHdrUnproducedC0ToDF (h : Byte)
  | blkEsc (h : Byte)
  -- bulk body keys, read by BLK_DECOMPRESS after the first word (R99); `i` is the slot of BLK_WIN
  | blkKeyD0 (i : BitVec 5)
  | blkKeyD1 (i : BitVec 5)
  | blkKeyD2 (i : BitVec 5)
  | blkKeyD3 (i : BitVec 5)
  | blkKeyD4 (i : BitVec 5)
  | blkRsvdKeyD5 (b : Byte)
  | blkRsvdKeyD6D7 (b : Byte)
  -- the 13 commands of the host (R103)
  | encWord (w : Word)
  | encSetStrength (s : Byte)
  | encReset
  | encEmptyOutput
  | encReadOut (off len : Nat)
  | encQuery
  | decAugment (b : List Byte)
  | decWord
  | decReset
  | decDiscard
  | decQuery
  | blkCompress (b : List Byte) (s : Byte)
  | blkDecompress (b : List Byte)
  deriving DecidableEq, Repr

/-- Where the bytes of an instruction stand, which decides how they are read (R93, R98, R99, R103). -/
inductive Context where
  | stream
  | bulkHeader
  | bulkBody
  | command
  deriving DecidableEq, Repr

/-- The `format` column of the opcode table, as the four contexts. -/
def Instr.context : Instr → Context
  | .keyD0 _ | .keyD1 _ | .keyD2 _ | .keyD3 _ | .keyD4 _ => .stream
  | .rsvdKeyD5 _ | .resetRec _ | .escInStream _ => .stream
  | .blkHdr _ | .blkHdrUnproduced20To3F _ | .blkHdrUnproduced40To7F _ => .bulkHeader
  | .blkHdrUnproduced80ToBF _ | .blkHdrUnproducedC0ToDF _ | .blkEsc _ => .bulkHeader
  | .blkKeyD0 _ | .blkKeyD1 _ | .blkKeyD2 _ | .blkKeyD3 _ | .blkKeyD4 _ => .bulkBody
  | .blkRsvdKeyD5 _ | .blkRsvdKeyD6D7 _ => .bulkBody
  | .encWord _ | .encSetStrength _ | .encReset | .encEmptyOutput | .encReadOut _ _ | .encQuery => .command
  | .decAugment _ | .decWord | .decReset | .decDiscard | .decQuery => .command
  | .blkCompress _ _ | .blkDecompress _ => .command

/-- A row of the opcode table: a lead byte `b` is the row's exactly when `b &&& mask = pattern`. -/
structure Row where
  mnemonic : String
  pattern : Byte
  mask : Byte
  deriving DecidableEq, Repr

/-- The row of spec/opcode_table.json a constructor stands for. -/
def Instr.row : Instr → Row
  | .keyD0 _ => ⟨"KEY_D0", 0x00, 0xE0⟩
  | .keyD1 _ => ⟨"KEY_D1", 0x20, 0xE0⟩
  | .keyD2 _ => ⟨"KEY_D2", 0x40, 0xE0⟩
  | .keyD3 _ => ⟨"KEY_D3", 0x60, 0xE0⟩
  | .keyD4 _ => ⟨"KEY_D4", 0x80, 0xE0⟩
  | .rsvdKeyD5 _ => ⟨"RSVD_KEY_D5", 0xA0, 0xE0⟩
  | .resetRec _ => ⟨"RESET_REC", 0xC0, 0xE0⟩
  | .escInStream _ => ⟨"ESC_IN_STREAM", 0xE0, 0xE0⟩
  | .blkHdr _ => ⟨"BLK_HDR", 0x00, 0xE0⟩
  | .blkHdrUnproduced20To3F _ => ⟨"BLK_HDR_UNPRODUCED_20_3F", 0x20, 0xE0⟩
  | .blkHdrUnproduced40To7F _ => ⟨"BLK_HDR_UNPRODUCED_40_7F", 0x40, 0xC0⟩
  | .blkHdrUnproduced80ToBF _ => ⟨"BLK_HDR_UNPRODUCED_80_BF", 0x80, 0xC0⟩
  | .blkHdrUnproducedC0ToDF _ => ⟨"BLK_HDR_UNPRODUCED_C0_DF", 0xC0, 0xE0⟩
  | .blkEsc _ => ⟨"BLK_ESC", 0xE0, 0xE0⟩
  | .blkKeyD0 _ => ⟨"BLK_KEY_D0", 0x00, 0xE0⟩
  | .blkKeyD1 _ => ⟨"BLK_KEY_D1", 0x20, 0xE0⟩
  | .blkKeyD2 _ => ⟨"BLK_KEY_D2", 0x40, 0xE0⟩
  | .blkKeyD3 _ => ⟨"BLK_KEY_D3", 0x60, 0xE0⟩
  | .blkKeyD4 _ => ⟨"BLK_KEY_D4", 0x80, 0xE0⟩
  | .blkRsvdKeyD5 _ => ⟨"BLK_RSVD_KEY_D5", 0xA0, 0xE0⟩
  | .blkRsvdKeyD6D7 _ => ⟨"BLK_RSVD_KEY_D6_D7", 0xC0, 0xC0⟩
  | .encWord _ => ⟨"ENC_WORD", 0x01, 0xFF⟩
  | .encSetStrength _ => ⟨"ENC_SET_STRENGTH", 0x02, 0xFF⟩
  | .encReset => ⟨"ENC_RESET", 0x03, 0xFF⟩
  | .encEmptyOutput => ⟨"ENC_EMPTY_OUTPUT", 0x04, 0xFF⟩
  | .encReadOut _ _ => ⟨"ENC_READ_OUT", 0x05, 0xFF⟩
  | .encQuery => ⟨"ENC_QUERY", 0x06, 0xFF⟩
  | .decAugment _ => ⟨"DEC_AUGMENT", 0x11, 0xFF⟩
  | .decWord => ⟨"DEC_WORD", 0x12, 0xFF⟩
  | .decReset => ⟨"DEC_RESET", 0x13, 0xFF⟩
  | .decDiscard => ⟨"DEC_DISCARD", 0x14, 0xFF⟩
  | .decQuery => ⟨"DEC_QUERY", 0x15, 0xFF⟩
  | .blkCompress _ _ => ⟨"BLK_COMPRESS", 0x21, 0xFF⟩
  | .blkDecompress _ => ⟨"BLK_DECOMPRESS", 0x22, 0xFF⟩

end Sys2Proof
end

