-- ==== Sys2Proof/WellFormed.lean ====
section
/-! DEFINITION. Which terms of `Instr` are instructions. Field widths are in the types; what remains is that a row that
carries its whole lead byte carries one of its own row (the match and mask of spec/opcode_table.json). -/

namespace Sys2Proof

/-- A lead byte belongs to a row of the opcode table. -/
def Row.holds (r : Row) (b : Byte) : Bool := b &&& r.mask == r.pattern

/-- Well-formedness: the byte a reserved, escape or unproduced-header row carries lies in that row. A command's
operands are unrestricted: an illegal strength or an empty sequence is a legal command that returns an error (R105). -/
def Instr.wf : Instr → Bool
  | .rsvdKeyD5 b => (Instr.rsvdKeyD5 b).row.holds b
  | .escInStream b => (Instr.escInStream b).row.holds b
  | .blkHdrUnproduced20To3F h => (Instr.blkHdrUnproduced20To3F h).row.holds h
  | .blkHdrUnproduced40To7F h => (Instr.blkHdrUnproduced40To7F h).row.holds h
  | .blkHdrUnproduced80ToBF h => (Instr.blkHdrUnproduced80ToBF h).row.holds h
  | .blkHdrUnproducedC0ToDF h => (Instr.blkHdrUnproducedC0ToDF h).row.holds h
  | .blkEsc h => (Instr.blkEsc h).row.holds h
  | .blkRsvdKeyD5 b => (Instr.blkRsvdKeyD5 b).row.holds b
  | .blkRsvdKeyD6D7 b => (Instr.blkRsvdKeyD6D7 b).row.holds b
  | .keyD0 _ | .keyD1 _ | .keyD2 _ | .keyD3 _ | .keyD4 _ | .resetRec _ | .blkHdr _ => true
  | .blkKeyD0 _ | .blkKeyD1 _ | .blkKeyD2 _ | .blkKeyD3 _ | .blkKeyD4 _ => true
  | .encWord _ | .encSetStrength _ | .encReset | .encEmptyOutput | .encReadOut _ _ | .encQuery => true
  | .decAugment _ | .decWord | .decReset | .decDiscard | .decQuery => true
  | .blkCompress _ _ | .blkDecompress _ => true

end Sys2Proof
end

