-- ==== Sys2Proof/Decode.lean ====
section
/-! DEFINITION. Decoding, total on any bytes, and then the encoder. A lead byte is read in one of four contexts (spec
30_encoding.md R93, R98, R99, R103). The byte layout of a command's operands at the host port is not in the spec
(DESIGN CHOICE, log 2): a word is its 4 bytes low first, a strength is one byte, a natural is its base-128 digits low
first with bit 7 set on every digit but the last, a byte sequence is its length as a natural and then its bytes. -/

namespace Sys2Proof

open Sys2Proof.Machine

/-- Why bytes at the port are no command. -/
inductive Reject where
  /-- There is no byte at all. -/
  | noBytes
  /-- The code is not in the table of R103: "spells no command" (R104). -/
  | unlistedCode (code : Byte)
  /-- The operands are not all there. -/
  | truncated
  deriving DecidableEq, Repr

/-- What decoding answers: an instruction and the bytes after it, or why there is none. -/
inductive Decoded where
  | ok (i : Instr) (rest : List Byte)
  | reject (why : Reject)
  deriving DecidableEq, Repr

/-! ### Operands of a command at the port (log 2) -/

def readByte : List Byte → Option (Byte × List Byte)
  | [] => none
  | b :: r => some (b, r)

def readWord : List Byte → Option (Word × List Byte)
  | b0 :: b1 :: b2 :: b3 :: r => some (le32 b0 b1 b2 b3, r)
  | _ => none

def readNat : List Byte → Option (Nat × List Byte)
  | [] => none
  | b :: r =>
    if b.toNat < 128 then some (b.toNat, r)
    else (readNat r).map fun (n, t) => (b.toNat - 128 + 128 * n, t)

def readSeq (bs : List Byte) : Option (List Byte × List Byte) :=
  (readNat bs).bind fun (n, r) => if n ≤ r.length then some (r.take n, r.drop n) else none

/-- The base-128 digits of `n`, low first; the first argument bounds their number. -/
def natDigits : Nat → Nat → List Byte
  | 0, n => [BitVec.ofNat 8 n]
  | fuel + 1, n =>
    if n < 128 then [BitVec.ofNat 8 n]
    else BitVec.ofNat 8 (n % 128 + 128) :: natDigits fuel (n / 128)

def putNat (n : Nat) : List Byte := natDigits n n

def putSeq (b : List Byte) : List Byte := putNat b.length ++ b

/-! ### Decoding, by context -/

/-- A streaming lead byte: "the record class is decided by bits 7:5 of the first queued byte alone" (R218, R93). -/
def decodeStream (b : Byte) : Instr :=
  match tagOf b with
  | 0 => .keyD0 (low5 b)
  | 1 => .keyD1 (low5 b)
  | 2 => .keyD2 (low5 b)
  | 3 => .keyD3 (low5 b)
  | 4 => .keyD4 (low5 b)
  | 5 => .rsvdKeyD5 b
  | 6 => .resetRec (low5 b)
  | _ => .escInStream b

/-- A bulk header byte (R98). -/
def decodeBulkHeader (h : Byte) : Instr :=
  match tagOf h with
  | 0 => .blkHdr (low5 h)
  | 1 => .blkHdrUnproduced20To3F h
  | 2 => .blkHdrUnproduced40To7F h
  | 3 => .blkHdrUnproduced40To7F h
  | 4 => .blkHdrUnproduced80ToBF h
  | 5 => .blkHdrUnproduced80ToBF h
  | 6 => .blkHdrUnproducedC0ToDF h
  | _ => .blkEsc h

/-- A byte in a key position of a bulk body (R99). -/
def decodeBulkBody (k : Byte) : Instr :=
  match tagOf k with
  | 0 => .blkKeyD0 (low5 k)
  | 1 => .blkKeyD1 (low5 k)
  | 2 => .blkKeyD2 (low5 k)
  | 3 => .blkKeyD3 (low5 k)
  | 4 => .blkKeyD4 (low5 k)
  | 5 => .blkRsvdKeyD5 k
  | _ => .blkRsvdKeyD6D7 k

/-- A command: its code and then its operands, `none` where the operands are cut short. -/
def decodeOperands (code : Nat) (r : List Byte) : Option (Option (Instr × List Byte)) :=
  match code with
  | 0x01 => some ((readWord r).map fun (w, t) => (.encWord w, t))
  | 0x02 => some ((readByte r).map fun (s, t) => (.encSetStrength s, t))
  | 0x03 => some (some (.encReset, r))
  | 0x04 => some (some (.encEmptyOutput, r))
  | 0x05 => some ((readNat r).bind fun (off, t) => (readNat t).map fun (len, u) => (.encReadOut off len, u))
  | 0x06 => some (some (.encQuery, r))
  | 0x11 => some ((readSeq r).map fun (b, t) => (.decAugment b, t))
  | 0x12 => some (some (.decWord, r))
  | 0x13 => some (some (.decReset, r))
  | 0x14 => some (some (.decDiscard, r))
  | 0x15 => some (some (.decQuery, r))
  | 0x21 => some ((readByte r).bind fun (s, t) => (readSeq t).map fun (b, u) => (.blkCompress b s, u))
  | 0x22 => some ((readSeq r).map fun (b, t) => (.blkDecompress b, t))
  | _ => none

/-- The bytes at the host port (R103); an unlisted code is refused at the boundary (R104). -/
def decodeCommand : List Byte → Decoded
  | [] => .reject .noBytes
  | c :: r =>
    match decodeOperands c.toNat r with
    | none => .reject (.unlistedCode c)
    | some none => .reject .truncated
    | some (some (i, t)) => .ok i t

/-- Decoding in a context, total on any bytes. -/
def decode (ctx : Context) (bs : List Byte) : Decoded :=
  match ctx, bs with
  | .command, bs => decodeCommand bs
  | .stream, b :: r => .ok (decodeStream b) r
  | .bulkHeader, h :: r => .ok (decodeBulkHeader h) r
  | .bulkBody, k :: r => .ok (decodeBulkBody k) r
  | .stream, [] | .bulkHeader, [] | .bulkBody, [] => .reject .noBytes

/-! ### Encoding -/

/-- The bytes of an instruction: a record's lead byte, or a command's code and operands. -/
def encode : Instr → List Byte
  | .keyD0 i | .blkKeyD0 i => [keyPack 0 i.toNat]
  | .keyD1 i | .blkKeyD1 i => [keyPack 1 i.toNat]
  | .keyD2 i | .blkKeyD2 i => [keyPack 2 i.toNat]
  | .keyD3 i | .blkKeyD3 i => [keyPack 3 i.toNat]
  | .keyD4 i | .blkKeyD4 i => [keyPack 4 i.toNat]
  | .rsvdKeyD5 b | .blkRsvdKeyD5 b | .blkRsvdKeyD6D7 b | .escInStream b => [b]
  | .resetRec s => [0xC0 ||| s.setWidth 8]
  | .blkHdr s => [s.setWidth 8]
  | .blkHdrUnproduced20To3F h | .blkHdrUnproduced40To7F h => [h]
  | .blkHdrUnproduced80ToBF h | .blkHdrUnproducedC0ToDF h => [h]
  | .blkEsc h => [h]
  | .encWord w => 0x01 :: leBytes w 4
  | .encSetStrength s => [0x02, s]
  | .encReset => [0x03]
  | .encEmptyOutput => [0x04]
  | .encReadOut off len => 0x05 :: (putNat off ++ putNat len)
  | .encQuery => [0x06]
  | .decAugment b => 0x11 :: putSeq b
  | .decWord => [0x12]
  | .decReset => [0x13]
  | .decDiscard => [0x14]
  | .decQuery => [0x15]
  | .blkCompress b s => 0x21 :: s :: putSeq b
  | .blkDecompress b => 0x22 :: putSeq b

/-- How many bytes the record of a lead byte takes on the wire, its payload or word included, the `length_bytes` of the
table (R93, R94); for a row that names no payload, the lead byte alone; for a command, its bytes at the port. -/
def Instr.wireLength (i : Instr) : Nat :=
  match i with
  | .keyD0 _ | .blkKeyD0 _ => 1
  | .keyD1 _ | .blkKeyD1 _ => 2
  | .keyD2 _ | .blkKeyD2 _ => 3
  | .keyD3 _ | .blkKeyD3 _ => 4
  | .keyD4 _ | .blkKeyD4 _ => 5
  | .resetRec _ => 5
  | .blkHdr _ | .blkHdrUnproduced20To3F _ | .blkHdrUnproduced40To7F _ => 5
  | .blkHdrUnproduced80ToBF _ | .blkHdrUnproducedC0ToDF _ => 5
  | .rsvdKeyD5 _ | .escInStream _ | .blkEsc _ | .blkRsvdKeyD5 _ | .blkRsvdKeyD6D7 _ => 1
  | .encWord _ | .encSetStrength _ | .encReset | .encEmptyOutput | .encReadOut _ _ | .encQuery
  | .decAugment _ | .decWord | .decReset | .decDiscard | .decQuery
  | .blkCompress _ _ | .blkDecompress _ => (encode i).length

/-! ### One word of the opcode table -/

/-- `n` bytes of a number, the low one first. -/
def bytesOfNat : Nat → Nat → List Byte
  | 0, _ => []
  | n + 1, w => BitVec.ofNat 8 w :: bytesOfNat n (w / 256)

/-- The bytes of a table word as the hardware meets them, with zeros above `nbits`. -/
def tableBytes (nbits w : Nat) : List Byte :=
  bytesOfNat ((nbits + 7) / 8) (w % 2 ^ nbits) ++ List.replicate 8 0

/-- The instruction read in a context, if it takes at least the bytes the table gives. -/
def decodeTableIn (ctx : Context) (nbits : Nat) (bs : List Byte) : Option Instr :=
  match decode ctx bs with
  | .ok i _ => if (nbits + 7) / 8 ≤ i.wireLength then some i else none
  | .reject _ => none

/-- The instruction of a table word. A bare word does not say its context, and the contexts overlap (the byte 0x01 is the
code of ENC_WORD, a stream key, a bulk header and a bulk key): the first context in the order command, stream, bulk
header, bulk body whose instruction takes all the bytes given (DESIGN CHOICE, log 12). -/
def decodeTableWord (nbits w : Nat) : Option Instr :=
  let bs := tableBytes nbits w
  (decodeTableIn .command nbits bs).or <|
    (decodeTableIn .stream nbits bs).or <|
      (decodeTableIn .bulkHeader nbits bs).or (decodeTableIn .bulkBody nbits bs)

end Sys2Proof
end

