-- ==== Sys2Proof/Machine/Ops.lean ====
section
/-! DEFINITION. The named operations every command goes through: the bytes of the encoder output buffer, the decoder input
queue, the limits, and the two ends of a command, `complete` and `raise` (spec 00_scope.md R11, R12). -/

namespace Sys2Proof.Machine

/-- The outcome of an instruction. -/
abbrev Outcome := Host.Outcome State Fault Refusal

/-! ### Updates of one part of the state -/

def State.withEnc (s : State) (e : Encoder) : State := { s with enc := e }

def State.withDec (s : State) (d : Decoder) : State := { s with dec := d }

def State.withBlk (s : State) (b : Scratch) : State := { s with blk := b }

def State.withReply (s : State) (r : Reply) : State := { s with port := { s.port with reply := some r } }

def State.withPending (s : State) (bs : List Byte) : State := { s with port := { s.port with pending := bs } }

/-! ### The two ends of a command -/

/-- `return (OK, v...)` (R12): the command's writes stand and the host receives the results. -/
def complete (r : Result) (s : State) : Outcome := .next (s.withReply ⟨.ok, r⟩)

/-- `raise E` (R12, 60_exceptions.md R302): error entry, the one shared operation. "There is no handler, vector, saved state
or mode change on an error" (R303): the state is as before the command and the host receives the status alone. There is no
return from an error. -/
def raise (e : Status) (s : State) : Outcome := .next (s.withReply ⟨e, .nothing⟩)

/-! ### `ENC_OUT` (20_memory.md R60, R63, R64) -/

/-- The byte at an address, `none` where none was ever written (R46). -/
def Memory.read : Memory → Nat → Option Byte
  | [], _ => none
  | (a, b) :: m, x => if x = a then some b else Memory.read m x

/-- Write one byte, keeping the addresses strictly rising. -/
def Memory.write : Memory → Nat → Byte → Memory
  | [], x, v => [(x, v)]
  | (a, b) :: m, x, v =>
    if x < a then (x, v) :: (a, b) :: m
    else if x = a then (x, v) :: m
    else (a, b) :: Memory.write m x v

/-- `ENC_OUT[x + j] <- s[j]` for every byte of `s` (R63). -/
def Memory.writeBytes : Memory → Nat → List Byte → Memory
  | m, _, [] => m
  | m, x, b :: s => Memory.writeBytes (m.write x b) (x + 1) s

/-- The `len` bytes from address `x` on, `none` if one of them holds no value. -/
def Memory.readBytes (m : Memory) : Nat → Nat → Option (List Byte)
  | _, 0 => some []
  | x, len + 1 => (m.read x).bind fun b => (Memory.readBytes m (x + 1) len).map fun s => b :: s

/-- The canonical form: addresses strictly rising. An unlisted address reads as no value, so no cell equals it. -/
def Memory.wf : Memory → Bool
  | [] => true
  | [_] => true
  | (a, _) :: (a', b') :: m => decide (a < a') && Memory.wf ((a', b') :: m)

/-- `OutAppend(s)`: write at `ENC_POS` and advance it (R63). -/
def Encoder.outAppend (e : Encoder) (s : List Byte) : Encoder :=
  { e with out := e.out.writeBytes e.pos s, pos := e.pos + s.length }

/-! ### `DEC_IN` (20_memory.md R65) -/

/-- `InPeek(k)`: byte `k` of the queue, left in place. -/
def Decoder.inPeek (d : Decoder) (k : Nat) : Option Byte := d.input[k]?

/-- `InConsume(n)`: drop the first `n` bytes. -/
def Decoder.inConsume (d : Decoder) (n : Nat) : Decoder := { d with input := d.input.drop n }

/-! ### Limits (00_scope.md R7) -/

/-- A length is within a limit; an unbounded limit admits every length (R211). -/
def within (n : Nat) : Option Nat → Bool
  | none => true
  | some c => decide (n ≤ c)

/-- The limit of the bulk decompressor, `BLK_MAX + 1` (R259, D21). -/
def Limits.blkMaxEscaped (l : Limits) : Option Nat := l.blkMax.map (· + 1)

end Sys2Proof.Machine
end

