-- ==== Sys2Proof/Machine/Bulk.lean ====
section
/-! DEFINITION. The bulk block path (spec 44_bulk_block.md): the rows of the bulk header map (30_encoding.md R98) and body key
map (R99), and the two commands. The rows work on a `Scratch`. BLK_DECOMPRESS runs them on a scratch of its own in one atomic
step (R13, R43); a row run on its own works on `State.blk` (log 10). -/

namespace Sys2Proof.Machine

/-! ### The records of a block, on a scratch -/

/-- The header of a compressed block and its first word, which seeds the scratch window (R261). -/
def bulkHeader (v : BitVec 5) (sc : Scratch) : Except Status Scratch :=
  match sc.input with
  | _ :: b1 :: b2 :: b3 :: b4 :: rest =>
    let w := le32 b1 b2 b3 b4
    .ok { win := (sc.win.clear (v.toNat + 1)).insert w, input := rest, out := leBytes w 4 }
  | _ => .error .malformedBoundary

/-- A body key of difference `d`, 0 to 4, and index `i` (R263, R264). -/
def bulkKey (d : Nat) (i : BitVec 5) (sc : Scratch) : Except Status Scratch :=
  match sc.win.read i.toNat with
  | none => .error .invalidBackReference
  | some e =>
    if sc.input.length < 1 + d then .error .malformedBoundary
    else
      let w := rebuild e d ((sc.input.drop 1).take d)
      .ok { win := sc.win.insert w, input := sc.input.drop (1 + d), out := sc.out ++ leBytes w 4 }

/-- The record of a key-position byte: `ReservedKey` comes first (R262). -/
def bulkRecord (k : Byte) (sc : Scratch) : Except Status Scratch :=
  let key := keyUnpack k
  if key.1 ≥ 5 then .error .reservedKey else bulkKey key.1 key.2 sc

/-- `while p < |b|`: records until every byte is read (R259, R264). Each record reads at least one byte, so the number of bytes
left bounds the records. -/
def bulkBody : Nat → Scratch → Except Status Scratch
  | 0, sc => .ok sc
  | fuel + 1, sc =>
    match sc.input with
    | [] => .ok sc
    | k :: _ =>
      match bulkRecord k sc with
      | .error e => .error e
      | .ok sc' => bulkBody fuel sc'

/-- A fresh scratch over a block (R43). -/
def Scratch.load (b : List Byte) : Scratch := { Scratch.idle with input := b }

/-- The block BLK_DECOMPRESS returns, or the status it raises (R259 after its operand checks; `b` is not empty). -/
def decompressBlock (b : List Byte) : Except Status (List Byte) :=
  match b with
  | [] => .error .nullOrEmptyBuffer
  | h :: raw =>
    if h ≥ 0xE0 then .ok raw
    else
      match bulkHeader (low5 h) (Scratch.load b) with
      | .error e => .error e
      | .ok sc =>
        match bulkBody sc.input.length sc with
        | .error e => .error e
        | .ok sc' => .ok sc'.out

/-! ### The rows, on `State.blk` -/

/-- A bulk record's effect: its scratch is kept while the command goes on; a raised status ends the command and drops it
(R43, R302). -/
def onScratch (f : Scratch → Except Status Scratch) (s : State) : Outcome :=
  match f s.blk with
  | .ok sc => .next (s.withBlk sc)
  | .error e => raise e (s.withBlk Scratch.idle)

/-- BLK_HDR (R261). -/
def execBlkHdr (v : BitVec 5) (s : State) : Outcome := onScratch (bulkHeader v) s

/-- BLK_HDR_UNPRODUCED_20_3F: accepted, strength `h & 0x1F` (R98, R261). -/
def execBlkHdrUnproduced20To3F (h : Byte) (s : State) : Outcome := onScratch (bulkHeader (low5 h)) s

/-- BLK_HDR_UNPRODUCED_40_7F: accepted, strength `h & 0x1F` (R98, R261). -/
def execBlkHdrUnproduced40To7F (h : Byte) (s : State) : Outcome := onScratch (bulkHeader (low5 h)) s

/-- BLK_HDR_UNPRODUCED_80_BF: accepted, strength `h & 0x1F` (R98, R261). -/
def execBlkHdrUnproduced80ToBF (h : Byte) (s : State) : Outcome := onScratch (bulkHeader (low5 h)) s

/-- BLK_HDR_UNPRODUCED_C0_DF: accepted, strength `h & 0x1F` (R98, R261). -/
def execBlkHdrUnproducedC0ToDF (h : Byte) (s : State) : Outcome := onScratch (bulkHeader (low5 h)) s

/-- BLK_ESC: the bytes after the header are returned unchanged, whatever their number, and the command ends; the strength bits
are ignored (R260). -/
def execBlkEsc (_ : Byte) (s : State) : Outcome :=
  complete (.bytes (s.blk.input.drop 1)) (s.withBlk Scratch.idle)

/-- BLK_KEY_D0 (R259, R263, R264). -/
def execBlkKeyD0 (i : BitVec 5) (s : State) : Outcome := onScratch (bulkKey 0 i) s

/-- BLK_KEY_D1 (R259, R263, R264). -/
def execBlkKeyD1 (i : BitVec 5) (s : State) : Outcome := onScratch (bulkKey 1 i) s

/-- BLK_KEY_D2 (R259, R263, R264). -/
def execBlkKeyD2 (i : BitVec 5) (s : State) : Outcome := onScratch (bulkKey 2 i) s

/-- BLK_KEY_D3 (R259, R263, R264). -/
def execBlkKeyD3 (i : BitVec 5) (s : State) : Outcome := onScratch (bulkKey 3 i) s

/-- BLK_KEY_D4 (R259, R263, R264). -/
def execBlkKeyD4 (i : BitVec 5) (s : State) : Outcome := onScratch (bulkKey 4 i) s

/-- BLK_RSVD_KEY_D5: `ReservedKey` (R262). -/
def execBlkRsvdKeyD5 (_ : Byte) (s : State) : Outcome := raise .reservedKey (s.withBlk Scratch.idle)

/-- BLK_RSVD_KEY_D6_D7: `ReservedKey`, "the bulk body has no reset or escape records" (R262). -/
def execBlkRsvdKeyD6D7 (_ : Byte) (s : State) : Outcome := raise .reservedKey (s.withBlk Scratch.idle)

/-! ### BLK_COMPRESS -/

/-- The block as words, each four bytes low byte first (R252). -/
def blockWords : List Byte → List Word
  | b0 :: b1 :: b2 :: b3 :: rest => le32 b0 b1 b2 b3 :: blockWords rest
  | _ => []

/-- The key records of the words after the first, in block order, from a scratch window (R255). -/
def compressWords : Fifo → List Word → List Byte
  | _, [] => []
  | f, w :: ws =>
    let best := findBestMatch f w .age
    keyRecord best.1 best.2 w ++ compressWords (f.insert w) ws

/-- The escape block: `[0xE0 | s] ++ b` (R97, R256). -/
def escapeBlock (v : Byte) (b : List Byte) : List Byte := (0xE0 ||| v) :: b

/-- The compressed form of a block of first word `w0` and later words `ws` (R254, R255). -/
def compressedForm (v : Byte) (w0 : Word) (ws : List Word) : List Byte :=
  v :: leBytes w0 4 ++ compressWords ((Scratch.idle.win.clear (v.toNat + 1)).insert w0) ws

/-- The block BLK_COMPRESS returns after its operand checks: a one-word block always escapes (R253), and so does one whose
compressed form is not shorter (R256). -/
def compressBlock (b : List Byte) (v : Byte) : List Byte :=
  match blockWords b with
  | [] => escapeBlock v b
  | [_] => escapeBlock v b
  | w0 :: ws =>
    let out := compressedForm v w0 ws
    if out.length ≥ b.length then escapeBlock v b else out

/-- BLK_COMPRESS (R250), with the operand checks in the order of R251. -/
def execBlkCompress (b : List Byte) (v : Byte) (s : State) : Outcome :=
  if b.length = 0 then raise .nullOrEmptyBuffer s
  else if b.length % 4 ≠ 0 then raise .invalidLength s
  else if !within b.length s.limits.blkMax then raise .outOfRange s
  else if v.toNat > 31 then raise .invalidStrength s
  else complete (.bytes (compressBlock b v)) s

/-- BLK_DECOMPRESS (R259). -/
def execBlkDecompress (b : List Byte) (s : State) : Outcome :=
  if b.length = 0 then raise .nullOrEmptyBuffer s
  else if !within b.length s.limits.blkMaxEscaped then raise .outOfRange s
  else
    match decompressBlock b with
    | .ok r => complete (.bytes r) s
    | .error e => raise e s

/-- `maximumDecompressedSize(c) = 4 × c` (R266), a pure function with no command. -/
def maximumDecompressedSize (c : Nat) : Nat := 4 * c

end Sys2Proof.Machine
end

