-- ==== Sys2Proof/Machine/DecoderChannel.lean ====
section
/-! DEFINITION. The streaming decoder channel (spec 43_stream_decoder.md): the rows of the streaming lead-byte map
(30_encoding.md R93) and the five commands. A record row is run by DEC_WORD with its lead byte at the head of `DEC_IN`; run on
its own it takes its lead byte from the instruction and the bytes after it from `DEC_IN` (log 9). -/

namespace Sys2Proof.Machine

/-- A key record of difference `d` and index `i` (R223); the index check comes before the length check (R224). -/
def streamKey (d : Nat) (i : BitVec 5) (s : State) : Outcome :=
  match s.dec.win.read i.toNat with
  | none => raise .invalidBackReference s
  | some e =>
    if s.dec.input.length < 1 + d then raise .needMoreData s
    else
      let w := rebuild e d ((s.dec.input.drop 1).take d)
      complete (.word w) (s.withDec { s.dec.inConsume (1 + d) with win := s.dec.win.insert w })

/-- KEY_D0 (R223). -/
def execKeyD0 (i : BitVec 5) (s : State) : Outcome := streamKey 0 i s

/-- KEY_D1 (R223). -/
def execKeyD1 (i : BitVec 5) (s : State) : Outcome := streamKey 1 i s

/-- KEY_D2 (R223). -/
def execKeyD2 (i : BitVec 5) (s : State) : Outcome := streamKey 2 i s

/-- KEY_D3 (R223). -/
def execKeyD3 (i : BitVec 5) (s : State) : Outcome := streamKey 3 i s

/-- KEY_D4 (R223). -/
def execKeyD4 (i : BitVec 5) (s : State) : Outcome := streamKey 4 i s

/-- RSVD_KEY_D5: `ReservedKey`, nothing consumed (R222). -/
def execRsvdKeyD5 (_ : Byte) (s : State) : Outcome := raise .reservedKey s

/-- RESET_REC: five bytes or `NeedMoreData`; a new strength, an empty window of capacity `strength + 1`, the raw word
inserted, five bytes consumed (R220). -/
def execResetRec (v : BitVec 5) (s : State) : Outcome :=
  match s.dec.input with
  | _ :: b1 :: b2 :: b3 :: b4 :: rest =>
    let w := le32 b1 b2 b3 b4
    complete (.word w)
      (s.withDec { strength := v, win := (s.dec.win.clear (v.toNat + 1)).insert w, input := rest })
  | _ => raise .needMoreData s

/-- ESC_IN_STREAM: `UnsupportedEscapeInStream`, nothing consumed (R221). -/
def execEscInStream (_ : Byte) (s : State) : Outcome := raise .unsupportedEscapeInStream s

/-- Run the record of a lead byte: the class is bits 7:5 alone (R218). -/
def runStreamRecord (b : Byte) (s : State) : Outcome :=
  match tagOf b with
  | 0 => execKeyD0 (low5 b) s
  | 1 => execKeyD1 (low5 b) s
  | 2 => execKeyD2 (low5 b) s
  | 3 => execKeyD3 (low5 b) s
  | 4 => execKeyD4 (low5 b) s
  | 5 => execRsvdKeyD5 b s
  | 6 => execResetRec (low5 b) s
  | _ => execEscInStream b s

/-- DEC_AUGMENT (R210, R211). -/
def execDecAugment (b : List Byte) (s : State) : Outcome :=
  if b.length = 0 then raise .nullOrEmptyBuffer s
  else if within (s.dec.input.length + b.length) s.limits.inCap then
    complete .nothing (s.withDec { s.dec with input := s.dec.input ++ b })
  else raise .inputFull s

/-- DEC_WORD (R215, R216). -/
def execDecWord (s : State) : Outcome :=
  match s.dec.inPeek 0 with
  | none => raise .needMoreData s
  | some b => runStreamRecord b s

/-- DEC_RESET (R228). -/
def execDecReset (s : State) : Outcome :=
  complete .nothing (s.withDec { s.dec with win := s.dec.win.clear (s.dec.strength.toNat + 1) })

/-- DEC_DISCARD (R229). -/
def execDecDiscard (s : State) : Outcome :=
  complete .nothing (s.withDec { s.dec with input := [] })

/-- DEC_QUERY (R230). -/
def execDecQuery (s : State) : Outcome :=
  complete (.decRegs s.dec.strength s.dec.input.length s.dec.win.count) s

end Sys2Proof.Machine
end

