-- ==== Sys2Proof/Machine/EncoderChannel.lean ====
section
/-! DEFINITION. The streaming encoder channel's six commands (spec 42_stream_encoder.md). -/

namespace Sys2Proof.Machine

/-- The record ENC_WORD builds: a reset record while the window is empty (R182), else a key record of the best match in
`SLOT` order (R183). -/
def Encoder.record (e : Encoder) (w : Word) : List Byte :=
  if e.win.count = 0 then resetRecord e.strength w
  else
    let best := findBestMatch e.win w .slot
    keyRecord best.1 best.2 w

/-- ENC_WORD (R180): the capacity check comes before every write (R181), the insert after the record (R184). -/
def execEncWord (w : Word) (s : State) : Outcome :=
  let r := s.enc.record w
  if s.enc.pos + r.length > s.limits.outCap then raise .bufferFull s
  else
    let e := s.enc.outAppend r
    complete (.written r.length) (s.withEnc { e with win := e.win.insert w })

/-- ENC_SET_STRENGTH (R185). -/
def execEncSetStrength (v : Byte) (s : State) : Outcome :=
  if v.toNat > 31 then raise .invalidStrength s
  else complete .nothing (s.withEnc { s.enc with strength := low5 v, win := s.enc.win.clear (v.toNat + 1) })

/-- ENC_RESET (R187). -/
def execEncReset (s : State) : Outcome :=
  complete .nothing (s.withEnc { s.enc with win := s.enc.win.clear (s.enc.strength.toNat + 1) })

/-- ENC_EMPTY_OUTPUT (R188): the old bytes stay in `ENC_OUT` (R64). -/
def execEncEmptyOutput (s : State) : Outcome :=
  complete .nothing (s.withEnc { s.enc with pos := 0 })

/-- ENC_READ_OUT (R189). -/
def execEncReadOut (off len : Nat) (s : State) : Outcome :=
  if off + len > s.enc.pos then raise .outOfRange s
  else
    match s.enc.out.readBytes off len with
    | some b => complete (.bytes b) s
    | none => .fault .outputByteAbsent

/-- ENC_QUERY (R190). -/
def execEncQuery (s : State) : Outcome :=
  complete (.encRegs s.enc.strength s.enc.pos s.enc.win.count) s

end Sys2Proof.Machine
end

