-- ==== Sys2Proof/Machine/Dispatch.lean ====
section
/-! DEFINITION. One arm per instruction, each a direct call of its meaning. -/

namespace Sys2Proof.Machine

/-- What an instruction does. -/
def exec (i : Instr) (s : State) : Host.Outcome State Fault Refusal :=
  match i with
  | .keyD0 idx => Sys2Proof.Machine.execKeyD0 idx s
  | .keyD1 idx => Sys2Proof.Machine.execKeyD1 idx s
  | .keyD2 idx => Sys2Proof.Machine.execKeyD2 idx s
  | .keyD3 idx => Sys2Proof.Machine.execKeyD3 idx s
  | .keyD4 idx => Sys2Proof.Machine.execKeyD4 idx s
  | .rsvdKeyD5 b => Sys2Proof.Machine.execRsvdKeyD5 b s
  | .resetRec v => Sys2Proof.Machine.execResetRec v s
  | .escInStream b => Sys2Proof.Machine.execEscInStream b s
  | .blkHdr v => Sys2Proof.Machine.execBlkHdr v s
  | .blkHdrUnproduced20To3F h => Sys2Proof.Machine.execBlkHdrUnproduced20To3F h s
  | .blkHdrUnproduced40To7F h => Sys2Proof.Machine.execBlkHdrUnproduced40To7F h s
  | .blkHdrUnproduced80ToBF h => Sys2Proof.Machine.execBlkHdrUnproduced80ToBF h s
  | .blkHdrUnproducedC0ToDF h => Sys2Proof.Machine.execBlkHdrUnproducedC0ToDF h s
  | .blkEsc h => Sys2Proof.Machine.execBlkEsc h s
  | .blkKeyD0 idx => Sys2Proof.Machine.execBlkKeyD0 idx s
  | .blkKeyD1 idx => Sys2Proof.Machine.execBlkKeyD1 idx s
  | .blkKeyD2 idx => Sys2Proof.Machine.execBlkKeyD2 idx s
  | .blkKeyD3 idx => Sys2Proof.Machine.execBlkKeyD3 idx s
  | .blkKeyD4 idx => Sys2Proof.Machine.execBlkKeyD4 idx s
  | .blkRsvdKeyD5 b => Sys2Proof.Machine.execBlkRsvdKeyD5 b s
  | .blkRsvdKeyD6D7 b => Sys2Proof.Machine.execBlkRsvdKeyD6D7 b s
  | .encWord w => Sys2Proof.Machine.execEncWord w s
  | .encSetStrength v => Sys2Proof.Machine.execEncSetStrength v s
  | .encReset => Sys2Proof.Machine.execEncReset s
  | .encEmptyOutput => Sys2Proof.Machine.execEncEmptyOutput s
  | .encReadOut off len => Sys2Proof.Machine.execEncReadOut off len s
  | .encQuery => Sys2Proof.Machine.execEncQuery s
  | .decAugment b => Sys2Proof.Machine.execDecAugment b s
  | .decWord => Sys2Proof.Machine.execDecWord s
  | .decReset => Sys2Proof.Machine.execDecReset s
  | .decDiscard => Sys2Proof.Machine.execDecDiscard s
  | .decQuery => Sys2Proof.Machine.execDecQuery s
  | .blkCompress b v => Sys2Proof.Machine.execBlkCompress b v s
  | .blkDecompress b => Sys2Proof.Machine.execBlkDecompress b s

end Sys2Proof.Machine
end

