-- ==== Sys2Proof/Machine/Fetch.lean ====
section
/-! DEFINITION. Taking the next command from the host port (spec 30_encoding.md R103, R104; logs 1 to 4), and placing one
instruction where the next step runs it (log 13). "The block has no program counter and fetches no instructions: each host
command is one step, and the host decides the order of commands" (10_state.md R32). -/

namespace Sys2Proof.Machine

/-- What stands at the host port. -/
inductive Fetched where
  /-- No command is pending. -/
  | idle
  /-- The next command, and the bytes after it. -/
  | command (i : Instr) (rest : List Byte)
  /-- Bytes that spell no command. -/
  | rejected (why : Refusal)
  deriving DecidableEq, Repr

def fetch (s : State) : Fetched :=
  match decodeCommand s.port.pending with
  | .ok i rest => .command i rest
  | .reject .noBytes => .idle
  | .reject (.unlistedCode c) => .rejected (.unlistedCommandCode c)
  | .reject .truncated => .rejected .commandCutShort

/-- The command that runs a record row: DEC_WORD reads it at the head of `DEC_IN`, BLK_DECOMPRESS as the header of a block, or
as the first key of the body of a block whose header and first word are zeros. A command runs itself. -/
def carrier (i : Instr) (bs : List Byte) : Instr :=
  match i.context with
  | .command => i
  | .stream => .decWord
  | .bulkHeader => .blkDecompress bs
  | .bulkBody => .blkDecompress ([0, 0, 0, 0, 0] ++ bs)

/-- Place the instruction whose bytes, with zeros after them, are `bs` so that the next step runs it. -/
def place (i : Instr) (bs : List Byte) (s : State) : State :=
  let rec_ := bs.take i.wireLength
  let s' := if i.context = .stream then s.withDec { s.dec with input := rec_ } else s
  s'.withPending (encode (carrier i rec_))

/-- Place a table word: its instruction, or its bytes as they are where it has none. -/
def placeWord (s : State) (nbits w : Nat) : State :=
  match decodeTableWord nbits w with
  | some i => place i (tableBytes nbits w) s
  | none => s.withPending (tableBytes nbits w)

end Sys2Proof.Machine
end

