-- ==== Sys2Proof/Machine/Step.lean ====
section
/-! DEFINITION. One step: the next command of the host port, run atomically (spec 00_scope.md R13, 20_memory.md R70). -/

namespace Sys2Proof.Machine

/-- One step. With no command pending the block "holds its state between commands" (R324, log 3). -/
def step (s : State) : Host.Outcome State Fault Refusal :=
  match fetch s with
  | .idle => .next s
  | .command i rest => exec i (s.withPending rest)
  | .rejected why => .refused why

/-- The state in which the next step runs the instruction of a table word (log 13). -/
def State.withFetchWord (s : State) (nbits w : Nat) : State := placeWord s nbits w

end Sys2Proof.Machine
end

