-- ==== Sys2Proof/Machine/Flags.lean ====
section
/-! DEFINITION. "The block has no flags or condition codes other than the status a command returns" (spec 10_state.md R45):
the numbers and classes of the status codes (60_exceptions.md R300). -/

namespace Sys2Proof.Machine

/-- The `code` column of R300. -/
def Status.code : Status → Nat
  | .ok => 0
  | .nullOrEmptyBuffer => 1
  | .invalidLength => 2
  | .outOfRange => 3
  | .invalidStrength => 4
  | .bufferFull => 5
  | .needMoreData => 6
  | .unsupportedEscapeInStream => 7
  | .malformedBoundary => 8
  | .invalidBackReference => 9
  | .reservedKey => 10
  | .inputFull => 11

/-- The classes of R300; `fatal` covers "fatal to the stream", "to the block" and "to the stream or block". -/
inductive StatusClass where
  | success
  | caller
  | recoverable
  | controlFlow
  | fatal
  deriving DecidableEq, Repr

/-- The `class` column of R300. -/
def Status.cls : Status → StatusClass
  | .ok => .success
  | .nullOrEmptyBuffer | .invalidLength | .outOfRange | .invalidStrength => .caller
  | .bufferFull | .inputFull => .recoverable
  | .needMoreData => .controlFlow
  | .unsupportedEscapeInStream | .malformedBoundary | .invalidBackReference | .reservedKey => .fatal

end Sys2Proof.Machine
end

