-- ==== Sys2Proof/Machine/HostMap.lean ====
section
/-! DEFINITION. The host's mapping of typed values onto words (spec 20_memory.md R75, R76) and the two host-level
pseudo-commands (30_encoding.md R106). The block does not execute these: "the block sees only words". -/

namespace Sys2Proof.Machine

/-- An unsigned 8- or 16-bit value is zero-extended to a word (R75, D33). -/
def wordOfUnsigned {n : Nat} (v : BitVec n) : Word := v.zeroExtend 32

/-- A signed 8- or 16-bit value is sign-extended to a word (R75, D33). -/
def wordOfSigned {n : Nat} (v : BitVec n) : Word := v.signExtend 32

/-- A 64-bit value is two words, the low word first (R75). -/
def split64 (v : BitVec 64) : Word × Word := (v.extractLsb' 0 32, v.extractLsb' 32 32)

/-- The host rejoins them as `low | high << 32` (R76). -/
def join64 (low high : Word) : BitVec 64 := low.setWidth 64 ||| high.setWidth 64 <<< 32

/-- `ENC64 v` expands to two ENC_WORD commands (R106). -/
def enc64 (v : BitVec 64) : List Instr := [.encWord (split64 v).1, .encWord (split64 v).2]

/-- `DEC64` expands to two DEC_WORD commands (R106). -/
def dec64 : List Instr := [.decWord, .decWord]

end Sys2Proof.Machine
end

