-- ==== Sys2Proof/Safety.lean ====
section
/-! DEFINITION. What statements are said in: the invariants the spec gives the state (10_state.md R34, R37, R38, R41, R42,
R43), what a command may leave unchanged, and runs of several commands. -/

namespace Sys2Proof

open Sys2Proof.Machine

/-- The six commands of the encoder channel. -/
def Instr.isEnc : Instr → Bool
  | .encWord _ | .encSetStrength _ | .encReset | .encEmptyOutput | .encReadOut _ _ | .encQuery => true
  | _ => false

/-- The five commands of the decoder channel and the records DEC_WORD runs. -/
def Instr.isDec : Instr → Bool
  | .decAugment _ | .decWord | .decReset | .decDiscard | .decQuery => true
  | .keyD0 _ | .keyD1 _ | .keyD2 _ | .keyD3 _ | .keyD4 _ | .rsvdKeyD5 _ | .resetRec _ | .escInStream _ => true
  | _ => false

/-- The two bulk commands. -/
def Instr.isBulkCommand : Instr → Bool
  | .blkCompress _ _ | .blkDecompress _ => true
  | _ => false

/-- The records BLK_DECOMPRESS runs. -/
def Instr.isBulkRecord (i : Instr) : Bool := i.context = .bulkHeader || i.context = .bulkBody

/-- The statuses an instruction may end with (the "returned by" column of R300; R310 to R313). -/
def Instr.statuses : Instr → List Status
  | .encWord _ => [.ok, .bufferFull]
  | .encSetStrength _ => [.ok, .invalidStrength]
  | .encReadOut _ _ => [.ok, .outOfRange]
  | .encReset | .encEmptyOutput | .encQuery | .decReset | .decDiscard | .decQuery => [.ok]
  | .decAugment _ => [.ok, .nullOrEmptyBuffer, .inputFull]
  | .decWord => [.ok, .needMoreData, .unsupportedEscapeInStream, .invalidBackReference, .reservedKey]
  | .keyD0 _ | .keyD1 _ | .keyD2 _ | .keyD3 _ | .keyD4 _ => [.ok, .invalidBackReference, .needMoreData]
  | .rsvdKeyD5 _ => [.reservedKey]
  | .resetRec _ => [.ok, .needMoreData]
  | .escInStream _ => [.unsupportedEscapeInStream]
  | .blkCompress _ _ => [.ok, .nullOrEmptyBuffer, .invalidLength, .outOfRange, .invalidStrength]
  | .blkDecompress _ =>
    [.ok, .nullOrEmptyBuffer, .outOfRange, .malformedBoundary, .invalidBackReference, .reservedKey]
  | .blkHdr _ | .blkHdrUnproduced20To3F _ | .blkHdrUnproduced40To7F _ => [.malformedBoundary]
  | .blkHdrUnproduced80ToBF _ | .blkHdrUnproducedC0ToDF _ => [.malformedBoundary]
  | .blkEsc _ => [.ok]
  | .blkKeyD0 _ | .blkKeyD1 _ | .blkKeyD2 _ | .blkKeyD3 _ | .blkKeyD4 _ =>
    [.invalidBackReference, .malformedBoundary]
  | .blkRsvdKeyD5 _ | .blkRsvdKeyD6D7 _ => [.reservedKey]

end Sys2Proof

namespace Sys2Proof.Machine

/-- The invariants of a FIFO (R34 (a), (b), (c); (d) holds by the form of `Fifo`). -/
abbrev Fifo.Wf (f : Fifo) : Prop :=
  (1 ≤ f.cap ∧ f.cap ≤ 32) ∧ f.count ≤ f.cap ∧ f.oldest < f.cap ∧ (f.count < f.cap → f.oldest = 0)

/-- The encoder channel: R34, R37, R38; `ENC_OUT` is in canonical form, lies below `OUT_CAP`, and every byte below `ENC_POS`
has been written. -/
abbrev Encoder.Wf (outCap : Nat) (e : Encoder) : Prop :=
  e.win.Wf ∧ e.win.cap = e.strength.toNat + 1 ∧ e.pos ≤ outCap ∧ e.out.wf = true
    ∧ (∀ a, a < e.pos → (e.out.read a).isSome = true) ∧ (∀ c ∈ e.out, c.1 < outCap)

/-- The decoder channel: R34, R41, R42. -/
abbrev Decoder.Wf (inCap : Option Nat) (d : Decoder) : Prop :=
  d.win.Wf ∧ d.win.cap = d.strength.toNat + 1 ∧ within d.input.length inCap = true

/-- The constants fixed at reset: `BLK_MAX` is positive or unbounded (R7). -/
abbrev Limits.Wf (l : Limits) : Prop := l.blkMax ≠ some 0

/-- The invariant of the block, between commands (R7, R34, R37, R38, R41, R42, R43). -/
abbrev State.Wf (s : State) : Prop :=
  s.enc.Wf s.limits.outCap ∧ s.dec.Wf s.limits.inCap ∧ s.blk = Scratch.idle ∧ s.limits.Wf

/-- The command ended with this status and these results. -/
abbrev State.answered (t : State) (e : Status) (r : Result) : Prop := t.port.reply = some ⟨e, r⟩

/-- Everything but the reply is as before: what a raised status leaves (R302), and what a query leaves. -/
abbrev State.sameButReply (t s : State) : Prop :=
  t.enc = s.enc ∧ t.dec = s.dec ∧ t.blk = s.blk ∧ t.limits = s.limits ∧ t.port.pending = s.port.pending

/-- Everything outside the encoder channel and the reply is as before (R323). -/
abbrev State.sameOutsideEnc (t s : State) : Prop :=
  t.dec = s.dec ∧ t.blk = s.blk ∧ t.limits = s.limits ∧ t.port.pending = s.port.pending

/-- Everything outside the decoder channel and the reply is as before (R323). -/
abbrev State.sameOutsideDec (t s : State) : Prop :=
  t.enc = s.enc ∧ t.blk = s.blk ∧ t.limits = s.limits ∧ t.port.pending = s.port.pending

/-- Everything outside the bulk scratch and the reply is as before (R43). -/
abbrev State.sameOutsideBlk (t s : State) : Prop :=
  t.enc = s.enc ∧ t.dec = s.dec ∧ t.limits = s.limits ∧ t.port.pending = s.port.pending

/-- The key row of the streaming format for a difference 0 to 4 (R93). -/
def streamKeyRow (d : Fin 5) (i : BitVec 5) : Instr :=
  match d with
  | 0 => .keyD0 i
  | 1 => .keyD1 i
  | 2 => .keyD2 i
  | 3 => .keyD3 i
  | 4 => .keyD4 i

/-- The key row of a bulk body for a difference 0 to 4 (R99). -/
def bulkKeyRow (d : Fin 5) (i : BitVec 5) : Instr :=
  match d with
  | 0 => .blkKeyD0 i
  | 1 => .blkKeyD1 i
  | 2 => .blkKeyD2 i
  | 3 => .blkKeyD3 i
  | 4 => .blkKeyD4 i

/-- The valid words of a FIFO from the oldest to the newest: the words of its slots in `AGE` order (R134). -/
def Fifo.byAge (f : Fifo) : List Word := (f.scanSlots .age).filterMap f.read

/-- Insert words one after another. -/
def Fifo.insertAll (f : Fifo) (ws : List Word) : Fifo := ws.foldl Fifo.insert f

/-- The search without its early stop: every slot is visited (R155). -/
def scanAll (f : Fifo) (w : Word) (slots : List Nat) (best : Nat × Nat) : Nat × Nat :=
  slots.foldl (fun best i =>
    match f.read i with
    | none => best
    | some e => if classify (w ^^^ e) < best.2 then (i, classify (w ^^^ e)) else best) best

/-- Run commands one after another, `none` if one of them has no next state. -/
def execAll : List Instr → State → Option State
  | [], s => some s
  | i :: is, s =>
    match exec i s with
    | .next t => execAll is t
    | .fault _ => none
    | .refused _ => none

/-- DEC_WORD `n` times: the words returned, in order, and the state after, `none` if one of them returns no word. -/
def decodeWords : Nat → State → Option (List Word × State)
  | 0, s => some ([], s)
  | n + 1, s =>
    match exec .decWord s with
    | .next t =>
      match t.port.reply with
      | some ⟨.ok, .word w⟩ => (decodeWords n t).map fun (ws, u) => (w :: ws, u)
      | _ => none
    | .fault _ => none
    | .refused _ => none

/-- Begin a bulk block by records: the scratch holds the block and no reply stands yet. -/
def State.beginBlock (s : State) (b : List Byte) : State :=
  { s with blk := Scratch.load b, port := { s.port with reply := none } }

/-- Run the body records of the block in `State.blk` until a reply stands or no byte is left. -/
def runBodyRecords : Nat → State → Outcome
  | 0, s => .next s
  | n + 1, s =>
    match s.port.reply, s.blk.input with
    | none, k :: _ =>
      match exec (decodeBulkBody k) s with
      | .next t => runBodyRecords n t
      | .fault r => .fault r
      | .refused r => .refused r
    | _, _ => .next s

/-- End a block whose bytes are all read: the host receives the result and the scratch is dropped (R43). -/
def endBlock (o : Outcome) : Outcome :=
  match o with
  | .next t =>
    match t.port.reply with
    | none => complete (.bytes t.blk.out) (t.withBlk Scratch.idle)
    | some _ => .next t
  | .fault r => .fault r
  | .refused r => .refused r

/-- A block run record by record: its header row, then its body rows. -/
def runBlockRecords (h : Byte) (b : List Byte) (s : State) : Outcome :=
  match exec (decodeBulkHeader h) (s.beginBlock b) with
  | .next t => endBlock (runBodyRecords b.length t)
  | .fault r => .fault r
  | .refused r => .refused r

end Sys2Proof.Machine
end

