-- ==== Sys2Proof/Certificates/Slice0/Obligations.lean ====
section
/-! DEFINITION. The statements about the machine, from the spec's numbered rules. Each docstring names its rule. A statement
about every state holds in every state; where it needs the invariant (`State.Wf`, `Fifo.Wf`) it says so. -/

open Sys2Proof Sys2Proof.Machine

/-! ### Encoding -/

/-- The decoder reads back every instruction the encoder writes, each operand at every value, and leaves the bytes after it
(R91, R92, R96, R97, R100, R103; the layout of command operands is the model's, log 2). -/
def Obligations.DecodeOfEncode : Prop :=
  ∀ (i : Instr) (rest : List Byte), i.wf = true → decode i.context (encode i ++ rest) = .ok i rest

/-- In each record context every byte spells exactly one row of the opcode table, the row whose match and mask it meets
(R93, R98, R99). -/
def Obligations.RecordByteSpellsOneRow : Prop :=
  ∀ (ctx : Context) (b : Byte) (rest : List Byte), ctx ≠ .command →
    ∃ i, decode ctx (b :: rest) = .ok i rest ∧ i.context = ctx ∧ i.wf = true ∧ encode i = [b] ∧ i.row.holds b = true
      ∧ ∀ j : Instr, j.context = ctx → j.row.holds b = true → j.row = i.row

/-- A decoded command is a well-formed command whose code is the first byte, and decoding leaves exactly the bytes it did not
read (R103). -/
def Obligations.CommandDecodesToItsCode : Prop :=
  ∀ (bs rest : List Byte) (i : Instr), decodeCommand bs = .ok i rest →
    i.context = .command ∧ i.wf = true ∧ ∃ used, bs = (i.row.pattern :: used) ++ rest

/-- Five lead bytes written out from the spec's encodings decode to what they stand for (R91, R92, R96, R97), and so does the
code of ENC_WORD (R103) with its operand bytes in the order the model gives them at the port (log 2). -/
def Obligations.SampleWordsDecode : Prop :=
  decode .stream [0xC5, 0x00, 0x00, 0x80, 0x3F] = .ok (.resetRec 5) [0x00, 0x00, 0x80, 0x3F]
    ∧ decode .stream [0x9F, 0x01] = .ok (.keyD4 31) [0x01]
    ∧ decode .bulkHeader [0x1F] = .ok (.blkHdr 31) []
    ∧ decode .bulkHeader [0xE7] = .ok (.blkEsc 0xE7) []
    ∧ decode .bulkBody [0x41] = .ok (.blkKeyD2 1) []
    ∧ decode .command [0x01, 0x00, 0x00, 0x80, 0x3F] = .ok (.encWord 0x3F800000) []

/-! ### Steps -/

/-- A step runs the decoded command with the bytes after it left pending; with no command pending it changes nothing (the
model's port and idle step: logs 1 and 3). -/
def Obligations.StepRunsDecodedCommand : Prop :=
  ∀ s : State,
    (∀ i rest, decodeCommand s.port.pending = .ok i rest → step s = exec i (s.withPending rest))
      ∧ (s.port.pending = [] → step s = .next s)

/-- "Every command code not listed in rule R103 spells no command" and is refused at the boundary (R104). -/
def Obligations.UnlistedCodeRefused : Prop :=
  ∀ (s : State) (c : Byte) (r : List Byte), s.port.pending = c :: r →
    c ∉ ([0x01, 0x02, 0x03, 0x04, 0x05, 0x06, 0x11, 0x12, 0x13, 0x14, 0x15, 0x21, 0x22] : List Byte) →
    step s = .refused (.unlistedCommandCode c)

/-- DEC_WORD on an empty queue waits (R216); else it runs the record of the first queued byte, whose bits 7:5 alone decide the
class (R218). -/
def Obligations.DecWordRunsLeadRecord : Prop :=
  ∀ s : State,
    (s.dec.input = [] → exec .decWord s = .next (s.withReply ⟨.needMoreData, .nothing⟩))
      ∧ ∀ b r, s.dec.input = b :: r → exec .decWord s = exec (decodeStream b) s

/-- BLK_DECOMPRESS of an accepted block is its header row and then its body rows, run on a fresh scratch that is dropped at the
end (R259, R43; that they run on `State.blk` is logs 10 and 11). -/
def Obligations.DecompressRunsItsRecords : Prop :=
  ∀ (s : State) (h : Byte) (r : List Byte), s.blk = Scratch.idle →
    within (h :: r).length s.limits.blkMaxEscaped = true →
    exec (.blkDecompress (h :: r)) s = runBlockRecords h (h :: r) s

/-! ### The encoder channel -/

/-- ENC_WORD into an empty window: `0xC0 | strength` and the word's 4 bytes, low byte first; the word is inserted; nothing else
changes (R182, R184). -/
def Obligations.EncWordWritesResetRecord : Prop :=
  ∀ (w : Word) (s : State), s.enc.win.count = 0 → s.enc.pos + 5 ≤ s.limits.outCap →
    ∃ t, exec (.encWord w) s = .next t ∧ t.answered .ok (.written 5)
      ∧ t.enc.out.readBytes s.enc.pos 5
          = some [0xC0 ||| s.enc.strength.setWidth 8, w.extractLsb' 0 8, w.extractLsb' 8 8, w.extractLsb' 16 8,
              w.extractLsb' 24 8]
      ∧ t.enc.pos = s.enc.pos + 5 ∧ t.enc.strength = s.enc.strength ∧ t.enc.win = s.enc.win.insert w
      ∧ (∀ a, (a < s.enc.pos ∨ s.enc.pos + 5 ≤ a) → t.enc.out.read a = s.enc.out.read a)
      ∧ t.sameOutsideEnc s

/-- ENC_WORD into a window that holds words: the key of the best match in `SLOT` order, a key byte 0x00 to 0x9F with an index
below the count, and the `d` low-order bytes of the word; the word is inserted; nothing else changes (R183, R184). -/
def Obligations.EncWordWritesKeyRecord : Prop :=
  ∀ (w : Word) (s : State) (i d : Nat), s.enc.win.Wf → s.enc.win.count ≠ 0 →
    findBestMatch s.enc.win w .slot = (i, d) → s.enc.pos + (1 + d) ≤ s.limits.outCap →
    ∃ t, exec (.encWord w) s = .next t ∧ t.answered .ok (.written (1 + d))
      ∧ t.enc.out.readBytes s.enc.pos (1 + d) = some (keyPack d i :: leBytes w d)
      ∧ keyPack d i ≤ 0x9F ∧ i < s.enc.win.count
      ∧ t.enc.pos = s.enc.pos + (1 + d) ∧ t.enc.strength = s.enc.strength ∧ t.enc.win = s.enc.win.insert w
      ∧ (∀ a, (a < s.enc.pos ∨ s.enc.pos + (1 + d) ≤ a) → t.enc.out.read a = s.enc.out.read a)
      ∧ t.sameOutsideEnc s

/-- ENC_WORD's capacity check is exact: a record that fills the buffer is accepted and the word inserted, whichever path built
the record; one byte more raises `BufferFull`, and nothing is written or inserted (R181, R184). -/
def Obligations.EncWordCapacityIsExact : Prop :=
  ∀ (w : Word) (s : State),
    ∃ t, exec (.encWord w) s = .next t
      ∧ (s.enc.pos + (s.enc.record w).length ≤ s.limits.outCap →
          t.answered .ok (.written (s.enc.record w).length) ∧ t.enc.pos = s.enc.pos + (s.enc.record w).length
            ∧ t.enc.out.readBytes s.enc.pos (s.enc.record w).length = some (s.enc.record w)
            ∧ t.enc.win = s.enc.win.insert w)
      ∧ (s.limits.outCap < s.enc.pos + (s.enc.record w).length →
          t.answered .bufferFull .nothing ∧ t.sameButReply s)

/-- What ENC_WORD wrote is what ENC_READ_OUT returns: the record, at the old `ENC_POS` (R63, R64, R189). -/
def Obligations.ReadOutReturnsTheRecord : Prop :=
  ∀ (w : Word) (s t : State) (n : Nat), exec (.encWord w) s = .next t → t.answered .ok (.written n) →
    ∃ u, exec (.encReadOut s.enc.pos n) t = .next u ∧ u.answered .ok (.bytes (s.enc.record w)) ∧ u.sameButReply t

/-- ENC_SET_STRENGTH: a strength 0 to 31 is taken and the window re-armed; 32 to 255 raise `InvalidStrength` and change nothing
(R185, R105). -/
def Obligations.SetStrengthRearmsWindow : Prop :=
  ∀ (v : Byte) (s : State),
    ∃ t, exec (.encSetStrength v) s = .next t
      ∧ (v.toNat ≤ 31 → t.answered .ok .nothing ∧ t.enc.strength.toNat = v.toNat
          ∧ t.enc.win.count = 0 ∧ t.enc.win.oldest = 0 ∧ t.enc.win.cap = v.toNat + 1
          ∧ t.enc.out = s.enc.out ∧ t.enc.pos = s.enc.pos ∧ t.sameOutsideEnc s)
      ∧ (31 < v.toNat → t.answered .invalidStrength .nothing ∧ t.sameButReply s)

/-- After a successful ENC_SET_STRENGTH the next ENC_WORD writes a reset record carrying the new strength, in a window of the new
capacity (R186). -/
def Obligations.StrengthTakesEffectAtNextWord : Prop :=
  ∀ (v : Byte) (w : Word) (s t : State), exec (.encSetStrength v) s = .next t → t.answered .ok .nothing →
    s.enc.pos + 5 ≤ s.limits.outCap →
    ∃ u, exec (.encWord w) t = .next u ∧ u.answered .ok (.written 5)
      ∧ u.enc.out.readBytes s.enc.pos 5 = some (encode (.resetRec (v.setWidth 5)) ++ leBytes w 4)
      ∧ u.enc.win.cap = v.toNat + 1 ∧ u.enc.win.slots = [w]

/-- ENC_RESET empties the window and keeps the strength, the output and the cursor (R187). -/
def Obligations.EncResetEmptiesWindow : Prop :=
  ∀ s : State,
    ∃ t, exec .encReset s = .next t ∧ t.answered .ok .nothing
      ∧ t.enc.win.count = 0 ∧ t.enc.win.oldest = 0 ∧ t.enc.win.cap = s.enc.strength.toNat + 1
      ∧ (∀ i, t.enc.win.read i = none)
      ∧ t.enc.strength = s.enc.strength ∧ t.enc.out = s.enc.out ∧ t.enc.pos = s.enc.pos ∧ t.sameOutsideEnc s

/-- ENC_EMPTY_OUTPUT rewinds the cursor and keeps the window and every byte; after it no byte is readable (R188, R64). -/
def Obligations.EmptyOutputRewindsCursor : Prop :=
  ∀ s : State,
    ∃ t, exec .encEmptyOutput s = .next t ∧ t.answered .ok .nothing ∧ t.enc.pos = 0
      ∧ t.enc.win = s.enc.win ∧ t.enc.strength = s.enc.strength
      ∧ (∀ a, t.enc.out.read a = s.enc.out.read a) ∧ t.sameOutsideEnc s
      ∧ ∀ off len, 0 < off + len →
          ∃ u, exec (.encReadOut off len) t = .next u ∧ u.answered .outOfRange .nothing ∧ u.sameButReply t

/-- ENC_READ_OUT returns the bytes of a range that ends at or below `ENC_POS`, raises `OutOfRange` on any other, and changes
nothing (R189, R64). -/
def Obligations.ReadOutReturnsBytesBelowPos : Prop :=
  ∀ (off len : Nat) (s : State), s.enc.Wf s.limits.outCap →
    ∃ t, exec (.encReadOut off len) s = .next t ∧ t.sameButReply s
      ∧ (off + len ≤ s.enc.pos → ∃ b, t.answered .ok (.bytes b) ∧ b.length = len
          ∧ ∀ j, j < len → b[j]? = s.enc.out.read (off + j))
      ∧ (s.enc.pos < off + len → t.answered .outOfRange .nothing)

/-- ENC_QUERY and DEC_QUERY return the registers of their channel and change nothing (R190, R230). -/
def Obligations.QueriesReturnRegisters : Prop :=
  ∀ s : State,
    (∃ t, exec .encQuery s = .next t ∧ t.answered .ok (.encRegs s.enc.strength s.enc.pos s.enc.win.count)
      ∧ t.sameButReply s)
    ∧ ∃ t, exec .decQuery s = .next t
      ∧ t.answered .ok (.decRegs s.dec.strength s.dec.input.length s.dec.win.count) ∧ t.sameButReply s

/-! ### The decoder channel -/

/-- DEC_AUGMENT appends its bytes; an empty sequence raises `NullOrEmptyBuffer` first, an append past `IN_CAP` raises
`InputFull`, and neither appends anything (R210, R211). -/
def Obligations.AugmentAppendsBytes : Prop :=
  ∀ (b : List Byte) (s : State),
    ∃ t, exec (.decAugment b) s = .next t
      ∧ (b = [] → t.answered .nullOrEmptyBuffer .nothing ∧ t.sameButReply s)
      ∧ (b ≠ [] → (∃ c, s.limits.inCap = some c ∧ c < s.dec.input.length + b.length) →
          t.answered .inputFull .nothing ∧ t.sameButReply s)
      ∧ (b ≠ [] → (∀ c, s.limits.inCap = some c → s.dec.input.length + b.length ≤ c) →
          t.answered .ok .nothing ∧ t.dec.input = s.dec.input ++ b ∧ t.dec.win = s.dec.win
          ∧ t.dec.strength = s.dec.strength ∧ t.sameOutsideDec s)

/-- A key record at the head of the queue whose slot is valid and whose payload is queued returns the word whose low `d` bytes are
the payload and whose other bytes are the slot word's; the word is inserted and `1 + d` bytes consumed (R223, R159). -/
def Obligations.KeyRecordRebuildsWord : Prop :=
  ∀ (d : Fin 5) (i : BitVec 5) (e : Word) (s : State),
    s.dec.input[0]? = some (keyPack d.val i.toNat) → s.dec.win.read i.toNat = some e →
    1 + d.val ≤ s.dec.input.length →
    ∃ (w : Word) (t : State), exec (streamKeyRow d i) s = .next t ∧ exec .decWord s = .next t ∧ t.answered .ok (.word w)
      ∧ (∀ j, j < d.val → s.dec.input[1 + j]? = some (w.extractLsb' (8 * j) 8))
      ∧ (∀ j, d.val ≤ j → j < 4 → w.extractLsb' (8 * j) 8 = e.extractLsb' (8 * j) 8)
      ∧ t.dec.win = s.dec.win.insert w ∧ t.dec.input = s.dec.input.drop (1 + d.val)
      ∧ t.dec.strength = s.dec.strength ∧ t.sameOutsideDec s

/-- A key record at the head of the queue with a bad index raises `InvalidBackReference` even when its payload has not arrived;
with a valid slot and too few bytes it raises `NeedMoreData`; neither changes anything (R223, R224). -/
def Obligations.KeyRecordChecksIndexFirst : Prop :=
  ∀ (d : Fin 5) (i : BitVec 5) (s : State), s.dec.input[0]? = some (keyPack d.val i.toNat) →
    (s.dec.win.count ≤ i.toNat →
      ∃ t, exec (streamKeyRow d i) s = .next t ∧ exec .decWord s = .next t
        ∧ t.answered .invalidBackReference .nothing ∧ t.sameButReply s)
    ∧ (i.toNat < s.dec.win.count → s.dec.input.length < 1 + d.val →
      ∃ t, exec (streamKeyRow d i) s = .next t ∧ exec .decWord s = .next t
        ∧ t.answered .needMoreData .nothing ∧ t.sameButReply s)

/-- A reset record at the head of the queue with its 5 bytes there sets the strength, leaves a window of capacity `strength + 1`
that holds its word alone, consumes 5 bytes and returns the word; with fewer it raises `NeedMoreData` (R220). -/
def Obligations.ResetRecordStartsEpoch : Prop :=
  ∀ (v : BitVec 5) (s : State),
    (∀ (w : Word) (rest : List Byte), s.dec.input = (0xC0 ||| v.setWidth 8) :: (leBytes w 4 ++ rest) →
      ∃ t, exec (.resetRec v) s = .next t ∧ exec .decWord s = .next t ∧ t.answered .ok (.word w) ∧ t.dec.strength = v
        ∧ t.dec.win.slots = [w] ∧ t.dec.win.oldest = 0 ∧ t.dec.win.cap = v.toNat + 1 ∧ t.dec.input = rest
        ∧ t.sameOutsideDec s)
    ∧ (s.dec.input.head? = some (0xC0 ||| v.setWidth 8) → s.dec.input.length < 5 →
      ∃ t, exec (.resetRec v) s = .next t ∧ exec .decWord s = .next t ∧ t.answered .needMoreData .nothing
        ∧ t.sameButReply s)

/-- Lead bytes 0xE0 to 0xFF raise `UnsupportedEscapeInStream` and 0xA0 to 0xBF raise `ReservedKey`; nothing is consumed, so the
next DEC_WORD raises it again (R221, R222). -/
def Obligations.EscapeAndReservedConsumeNothing : Prop :=
  ∀ (b : Byte) (r : List Byte) (s : State), s.dec.input = b :: r →
    (0xE0 ≤ b → ∃ t, exec (.escInStream b) s = .next t ∧ exec .decWord s = .next t
      ∧ t.answered .unsupportedEscapeInStream .nothing ∧ t.sameButReply s ∧ exec .decWord t = .next t)
    ∧ (0xA0 ≤ b → b ≤ 0xBF → ∃ t, exec (.rsvdKeyD5 b) s = .next t ∧ exec .decWord s = .next t
      ∧ t.answered .reservedKey .nothing ∧ t.sameButReply s ∧ exec .decWord t = .next t)

/-- "a fatal `DEC_WORD` status repeats on every later `DEC_WORD` until the host changes `DEC_IN`" (R304). -/
def Obligations.FatalStatusRepeats : Prop :=
  ∀ (s t : State) (e : Status) (r : Result), exec .decWord s = .next t → t.answered e r → e.cls = .fatal →
    exec .decWord t = .next t

/-- The decoder window is empty after reset and after DEC_RESET; while it is, every key byte raises `InvalidBackReference`, and
only a reset record can be decoded (R225). -/
def Obligations.OnlyResetRecordIntoEmptyWindow : Prop :=
  (∀ c : Config, (State.resetWith c).dec.win.count = 0)
  ∧ (∀ s t : State, exec .decReset s = .next t → t.dec.win.count = 0)
  ∧ ∀ (s : State) (b : Byte) (r : List Byte), s.dec.win.count = 0 → s.dec.input = b :: r →
    (b ≤ 0x9F → ∃ t, exec .decWord s = .next t ∧ t.answered .invalidBackReference .nothing ∧ t.sameButReply s)
    ∧ ∀ t w, exec .decWord s = .next t → t.answered .ok (.word w) → 0xC0 ≤ b ∧ b ≤ 0xDF

/-- DEC_RESET empties the window and keeps the strength and the queue (R228). -/
def Obligations.DecResetEmptiesWindow : Prop :=
  ∀ s : State,
    ∃ t, exec .decReset s = .next t ∧ t.answered .ok .nothing
      ∧ t.dec.win.count = 0 ∧ t.dec.win.oldest = 0 ∧ t.dec.win.cap = s.dec.strength.toNat + 1
      ∧ (∀ i, t.dec.win.read i = none)
      ∧ t.dec.strength = s.dec.strength ∧ t.dec.input = s.dec.input ∧ t.sameOutsideDec s

/-- DEC_DISCARD drops every queued byte and keeps the window and the strength, so the next DEC_WORD needs more data (R229,
R216). -/
def Obligations.DiscardDropsInput : Prop :=
  ∀ s : State,
    ∃ t, exec .decDiscard s = .next t ∧ t.answered .ok .nothing ∧ t.dec.input = [] ∧ t.dec.win = s.dec.win
      ∧ t.dec.strength = s.dec.strength ∧ t.sameOutsideDec s
      ∧ ∃ u, exec .decWord t = .next u ∧ u.answered .needMoreData .nothing ∧ u.sameButReply t

/-! ### Match, key and window -/

/-- `Classify(w ^ e)` is the least `d` in 0..4 such that `w` and `e` agree in bytes `d` to 3, "so `(w ^ e) & ~MASK(d) = 0`", with
the five masks the rule lists (R151). -/
def Obligations.ClassifyIsLeastAgreement : Prop :=
  (maskLow 0 = 0x00000000 ∧ maskLow 1 = 0x000000FF ∧ maskLow 2 = 0x0000FFFF ∧ maskLow 3 = 0x00FFFFFF
    ∧ maskLow 4 = 0xFFFFFFFF)
  ∧ ∀ w e : Word, classify (w ^^^ e) ≤ 4 ∧ (w ^^^ e) &&& ~~~ maskLow (classify (w ^^^ e)) = 0
    ∧ ∀ d, d ≤ 4 → (classify (w ^^^ e) ≤ d ↔ ∀ j, d ≤ j → j < 4 → w.extractLsb' (8 * j) 8 = e.extractLsb' (8 * j) 8)

/-- The streaming search gives the least difference over the valid slots and the lowest slot that reaches it (R153). -/
def Obligations.StreamingSearchTakesLowestLeast : Prop :=
  ∀ (f : Fifo) (w : Word) (i d : Nat), f.count ≠ 0 → findBestMatch f w .slot = (i, d) →
    (∃ e, f.read i = some e ∧ classify (w ^^^ e) = d)
      ∧ ∀ j e, f.read j = some e → d ≤ classify (w ^^^ e) ∧ (j < i → d < classify (w ^^^ e))

/-- The bulk search gives the least difference and the first slot in `AGE` order that reaches it when that difference is below 4,
and `(0, 4)` when every valid slot gives difference 4; a difference-4 key carries index 0 in both scan orders (R154). -/
def Obligations.BulkSearchTakesOldestLeast : Prop :=
  ∀ (f : Fifo) (w : Word) (i d : Nat), f.Wf → f.count ≠ 0 → findBestMatch f w .age = (i, d) →
    (∀ j e, f.read j = some e → d ≤ classify (w ^^^ e))
      ∧ (d < 4 → ∃ k e, k < f.count ∧ i = (f.oldest + k) % f.cap ∧ f.read i = some e ∧ classify (w ^^^ e) = d
          ∧ ∀ k' e', k' < k → f.read ((f.oldest + k') % f.cap) = some e' → d < classify (w ^^^ e'))
      ∧ (4 ≤ d → (i, d) = (0, 4))
      ∧ ∀ i', findBestMatch f w .slot = (i', 4) → i' = 0

/-- "The early stop changes no result" (R155). -/
def Obligations.EarlyStopChangesNothing : Prop :=
  ∀ (f : Fifo) (w : Word) (o : ScanOrder), findBestMatch f w o = scanAll f w (f.scanSlots o) (0, o.sentinel)

/-- One word round trip: for every `d` from `Classify(w ^ e)` to 4, `Rebuild(e, d, Payload(w, d)) = w` (R160). -/
def Obligations.RebuildOfPayload : Prop :=
  ∀ (w e : Word) (d : Nat), classify (w ^^^ e) ≤ d → d ≤ 4 → rebuild e d (payload w d) = w

/-- WinInsert: below capacity the word goes to slot `count`; at capacity it overwrites slot `oldest`, which advances modulo the
capacity; no other slot changes (R131). -/
def Obligations.InsertAppendsOrOverwritesOldest : Prop :=
  ∀ (f : Fifo) (w : Word), f.Wf →
    (f.insert w).cap = f.cap
    ∧ (f.count < f.cap → (f.insert w).count = f.count + 1 ∧ (f.insert w).oldest = 0
        ∧ ∀ i, (f.insert w).read i = if i = f.count then some w else f.read i)
    ∧ (f.count = f.cap → (f.insert w).count = f.count ∧ (f.insert w).oldest = (f.oldest + 1) % f.cap
        ∧ ∀ i, (f.insert w).read i = if i = f.oldest then some w else f.read i)

/-- From every legal FIFO an insert appends the word to the words in `AGE` order and, when the FIFO is full, drops the oldest of
them; so a FIFO of capacity `c` holds the last `c` words inserted since it was cleared (R33, R131, R134). -/
def Obligations.WindowHoldsLastWordsInOrder : Prop :=
  (∀ (f : Fifo) (w : Word), f.Wf →
    (f.insert w).byAge = (if f.count < f.cap then f.byAge else f.byAge.drop 1) ++ [w])
  ∧ ∀ (c : Nat) (ws : List Word), 1 ≤ c → c ≤ 32 →
      ((Fifo.empty c).insertAll ws).byAge = ws.drop (ws.length - c)

/-! ### The bulk path -/

/-- BLK_COMPRESS's operand checks, in their order; after them it cannot fail (R251, R312). -/
def Obligations.CompressChecksOperandsInOrder : Prop :=
  ∀ (b : List Byte) (v : Byte) (s : State),
    ∃ t, exec (.blkCompress b v) s = .next t ∧ t.sameButReply s
      ∧ (b = [] → t.answered .nullOrEmptyBuffer .nothing)
      ∧ (b ≠ [] → b.length % 4 ≠ 0 → t.answered .invalidLength .nothing)
      ∧ (b ≠ [] → b.length % 4 = 0 → (∃ m, s.limits.blkMax = some m ∧ m < b.length) → t.answered .outOfRange .nothing)
      ∧ (b ≠ [] → b.length % 4 = 0 → (∀ m, s.limits.blkMax = some m → b.length ≤ m) → 31 < v.toNat →
          t.answered .invalidStrength .nothing)
      ∧ (b ≠ [] → b.length % 4 = 0 → (∀ m, s.limits.blkMax = some m → b.length ≤ m) → v.toNat ≤ 31 →
          ∃ c, t.answered .ok (.bytes c))

/-- What BLK_COMPRESS returns for an accepted block. The block is the words `w0 :: ws`, each low byte first; one word always
escapes. For more, the compressed form is the raw strength as header, the first word, and for each later word `ws[k]` the key
and the payload of its best match in `AGE` order, searched in a window of capacity `strength + 1` into which `w0` and the words
before it have been inserted; each key is at most 0x9F. It is returned when it is shorter than the block, and the escape block
otherwise (R252 to R256). -/
def Obligations.CompressEscapesUnlessShorter : Prop :=
  ∀ (b c : List Byte) (v : Byte) (s t : State), exec (.blkCompress b v) s = .next t → t.answered .ok (.bytes c) →
    ∃ (w0 : Word) (ws : List Word), blockWords b = w0 :: ws ∧ b = (w0 :: ws).flatMap (leBytes · 4)
      ∧ (ws = [] → c = (0xE0 ||| v) :: b)
      ∧ (ws ≠ [] → ∃ recs : List (List Byte), recs.length = ws.length
          ∧ (∀ k w i d, ws[k]? = some w →
              findBestMatch ((Fifo.empty (v.toNat + 1)).insertAll (w0 :: ws.take k)) w .age = (i, d) →
              recs[k]? = some (keyPack d i :: leBytes w d) ∧ keyPack d i ≤ 0x9F)
          ∧ compressedForm v w0 ws = v :: (leBytes w0 4 ++ recs.flatten)
          ∧ c = if (compressedForm v w0 ws).length < b.length then compressedForm v w0 ws else (0xE0 ||| v) :: b)

/-- Sizes: the result is at most one byte longer than the block, and shorter exactly when it is a compressed form, one whose header
is below 0xE0; the compressed form of `n` words is at most `5n` bytes (R257). -/
def Obligations.CompressedSizeBounds : Prop :=
  (∀ (b c : List Byte) (v : Byte) (s t : State), exec (.blkCompress b v) s = .next t → t.answered .ok (.bytes c) →
    c.length ≤ b.length + 1 ∧ ∃ h r, c = h :: r ∧ (c.length < b.length ↔ h < 0xE0))
  ∧ ∀ (v : Byte) (w0 : Word) (ws : List Word), (compressedForm v w0 ws).length ≤ 5 * (ws.length + 1)

/-- BLK_DECOMPRESS: an empty block, then a block past `BLK_MAX + 1`, then an escape block, whose bytes after the header are
returned unchanged, then a compressed block with fewer than 4 bytes after its header (R259, R260, R261, R313). -/
def Obligations.DecompressChecksAndEscape : Prop :=
  ∀ (b : List Byte) (s : State),
    (b = [] → ∃ t, exec (.blkDecompress b) s = .next t ∧ t.answered .nullOrEmptyBuffer .nothing ∧ t.sameButReply s)
    ∧ (b ≠ [] → (∃ m, s.limits.blkMax = some m ∧ m + 1 < b.length) →
        ∃ t, exec (.blkDecompress b) s = .next t ∧ t.answered .outOfRange .nothing ∧ t.sameButReply s)
    ∧ ∀ h r, b = h :: r → (∀ m, s.limits.blkMax = some m → b.length ≤ m + 1) →
        (0xE0 ≤ h → ∃ t, exec (.blkDecompress b) s = .next t ∧ t.answered .ok (.bytes r) ∧ t.sameButReply s)
        ∧ (h < 0xE0 → r.length < 4 →
            ∃ t, exec (.blkDecompress b) s = .next t ∧ t.answered .malformedBoundary .nothing ∧ t.sameButReply s)

/-- The header rows 0x00 to 0xDF: the strength is `header & 0x1F`, the next 4 bytes are the first word, which begins the result and
seeds the scratch window; fewer raise `MalformedBoundary` and the scratch is dropped (R261, R98; the scratch in State is logs 10
and 11). -/
def Obligations.HeaderRowSeedsScratch : Prop :=
  ∀ (i : Instr) (v : BitVec 5) (s : State),
    (i = .blkHdr v ∨ ∃ h : Byte, h.setWidth 5 = v ∧ (i = .blkHdrUnproduced20To3F h ∨ i = .blkHdrUnproduced40To7F h
      ∨ i = .blkHdrUnproduced80ToBF h ∨ i = .blkHdrUnproducedC0ToDF h)) →
    (∀ (b0 : Byte) (w : Word) (rest : List Byte), s.blk.input = b0 :: (leBytes w 4 ++ rest) →
      ∃ t, exec i s = .next t ∧ t.blk.win.slots = [w] ∧ t.blk.win.oldest = 0 ∧ t.blk.win.cap = v.toNat + 1
        ∧ t.blk.input = rest ∧ t.blk.out = leBytes w 4 ∧ t.sameOutsideBlk s ∧ t.port.reply = s.port.reply)
    ∧ (s.blk.input.length < 5 →
      ∃ t, exec i s = .next t ∧ t.answered .malformedBoundary .nothing ∧ t.blk = Scratch.idle ∧ t.sameOutsideBlk s)

/-- The escape row returns the bytes after the header, whatever their number, and ends the command (R260; the scratch in State
is log 10). -/
def Obligations.EscapeRowReturnsRest : Prop :=
  ∀ (h b0 : Byte) (r : List Byte) (s : State), s.blk.input = b0 :: r →
    ∃ t, exec (.blkEsc h) s = .next t ∧ t.answered .ok (.bytes r) ∧ t.blk = Scratch.idle ∧ t.sameOutsideBlk s

/-- A body key whose slot is valid and whose payload is there appends the rebuilt word to the result, inserts it into the scratch
window and passes `1 + d` bytes (R259, R159; the scratch in State is logs 10 and 11). -/
def Obligations.BodyKeyRebuildsWord : Prop :=
  ∀ (d : Fin 5) (i : BitVec 5) (e : Word) (s : State),
    s.blk.win.read i.toNat = some e → 1 + d.val ≤ s.blk.input.length →
    ∃ (w : Word) (t : State), exec (bulkKeyRow d i) s = .next t
      ∧ (∀ j, j < d.val → s.blk.input[1 + j]? = some (w.extractLsb' (8 * j) 8))
      ∧ (∀ j, d.val ≤ j → j < 4 → w.extractLsb' (8 * j) 8 = e.extractLsb' (8 * j) 8)
      ∧ t.blk.win = s.blk.win.insert w ∧ t.blk.input = s.blk.input.drop (1 + d.val)
      ∧ t.blk.out = s.blk.out ++ leBytes w 4 ∧ t.sameOutsideBlk s ∧ t.port.reply = s.port.reply

/-- Errors in a bulk body: a key of difference 5 to 7 raises `ReservedKey`, then a bad index raises `InvalidBackReference`, then a
payload past the end raises `MalformedBoundary`; the scratch is dropped (R262, R263, R264; the scratch in State is logs 10 and
11). -/
def Obligations.BodyErrorsEndTheBlock : Prop :=
  ∀ s : State,
    (∀ (b : Byte) (i : Instr), i = .blkRsvdKeyD5 b ∨ i = .blkRsvdKeyD6D7 b →
      ∃ t, exec i s = .next t ∧ t.answered .reservedKey .nothing ∧ t.blk = Scratch.idle ∧ t.sameOutsideBlk s)
    ∧ (∀ (d : Fin 5) (i : BitVec 5), s.blk.win.count ≤ i.toNat →
      ∃ t, exec (bulkKeyRow d i) s = .next t ∧ t.answered .invalidBackReference .nothing ∧ t.blk = Scratch.idle
        ∧ t.sameOutsideBlk s)
    ∧ (∀ (d : Fin 5) (i : BitVec 5), i.toNat < s.blk.win.count → s.blk.input.length < 1 + d.val →
      ∃ t, exec (bulkKeyRow d i) s = .next t ∧ t.answered .malformedBoundary .nothing ∧ t.blk = Scratch.idle
        ∧ t.sameOutsideBlk s)

/-- "a successful `BLK_DECOMPRESS` returns at most `4 × |b|` bytes": the escape path `|b| - 1`; on the compressed path the bytes
after the header are the first word and `m` key records, each a key byte and its `d` payload bytes, `m ≤ |b| - 5`, and `4 + 4m`
bytes are returned (R265, R266). -/
def Obligations.DecompressedSizeBound : Prop :=
  ∀ (b c : List Byte) (s t : State), exec (.blkDecompress b) s = .next t → t.answered .ok (.bytes c) →
    c.length ≤ maximumDecompressedSize b.length ∧ maximumDecompressedSize b.length = 4 * b.length
      ∧ ∀ h r, b = h :: r →
        (0xE0 ≤ h → c.length = b.length - 1)
        ∧ (h < 0xE0 → ∃ (w0 : Word) (recs : List (List Byte)), r = leBytes w0 4 ++ recs.flatten
            ∧ (∀ rec ∈ recs, ∃ (d : Fin 5) (i : BitVec 5) (p : List Byte),
                rec = keyPack d.val i.toNat :: p ∧ p.length = d.val)
            ∧ recs.length + 5 ≤ b.length ∧ c.length = 4 + 4 * recs.length)

/-! ### Round trips -/

/-- "for every block `b` accepted by `BLK_COMPRESS b, s`, `BLK_DECOMPRESS` of its result returns `b`" (R267). -/
def Obligations.BlockRoundTrip : Prop :=
  ∀ (b c : List Byte) (v : Byte) (s t : State), exec (.blkCompress b v) s = .next t → t.answered .ok (.bytes c) →
    ∃ u, exec (.blkDecompress c) t = .next u ∧ u.answered .ok (.bytes b) ∧ u.sameButReply t

/-- One word through both channels: when the windows agree, or the encoder's is empty, the bytes ENC_WORD wrote, at the head of the
decoder's queue, decode to the word, and the windows and strengths agree again (R226, one record). -/
def Obligations.DecoderMirrorsEncoder : Prop :=
  ∀ (w : Word) (s t : State) (n : Nat) (rest : List Byte), s.enc.Wf s.limits.outCap →
    (s.enc.win.count = 0 ∨ s.dec.win = s.enc.win ∧ s.dec.strength = s.enc.strength) →
    exec (.encWord w) s = .next t → t.answered .ok (.written n) →
    ∃ (bytes : List Byte) (u : State), t.enc.out.readBytes s.enc.pos n = some bytes
      ∧ exec .decWord (t.withDec { t.dec with input := bytes ++ rest }) = .next u ∧ u.answered .ok (.word w)
      ∧ u.dec.win = t.enc.win ∧ u.dec.strength = t.enc.strength ∧ u.dec.input = rest

/-- "for any strength `s ∈ [0,31]` and any finite sequence of words, `decode(encode(seq)) == seq`" (R226): the bytes written for a
sequence of words from an empty window, given to the decoder, decode to the same words, and the windows agree. -/
def Obligations.StreamRoundTrip : Prop :=
  ∀ (ws : List Word) (s : State), s.Wf → s.enc.win.count = 0 → ws ≠ [] →
    s.enc.pos + 5 * ws.length ≤ s.limits.outCap →
    ∃ (t u : State) (bytes : List Byte), execAll (ws.map Instr.encWord) s = some t
      ∧ t.enc.out.readBytes s.enc.pos (t.enc.pos - s.enc.pos) = some bytes
      ∧ decodeWords ws.length (t.withDec { t.dec with input := bytes }) = some (ws, u)
      ∧ u.dec.win = t.enc.win ∧ u.dec.strength = t.enc.strength ∧ u.dec.input = []

/-! ### The whole machine -/

/-- Reset leaves every register at the value the spec gives it, whatever the reset arguments (R340, R46). -/
def Obligations.ResetValues : Prop :=
  ∀ (c : Config) (s : State), s = State.resetWith c →
    s.enc.strength = c.encStrengthInit ∧ s.enc.win.cap = c.encStrengthInit.toNat + 1 ∧ s.enc.win.count = 0
    ∧ s.enc.win.oldest = 0 ∧ s.enc.pos = 0 ∧ (∀ a, s.enc.out.read a = none)
    ∧ s.dec.strength = 0 ∧ s.dec.win.cap = 1 ∧ s.dec.win.count = 0 ∧ s.dec.win.oldest = 0 ∧ s.dec.input = []
    ∧ (∀ i, s.enc.win.read i = none ∧ s.dec.win.read i = none)
    ∧ s.limits.outCap = c.outCap ∧ s.limits.inCap = c.inCap ∧ s.limits.blkMax = c.blkMax

/-- The invariant holds after reset with any arguments R7 admits (R7, R34, R37, R41). -/
def Obligations.ResetMeetsInvariant : Prop := ∀ c : Config, c.Wf → (State.resetWith c).Wf

/-- Every step, and every instruction, keeps the invariant: FIFO fields legal, `cap = strength + 1` in both channels,
`ENC_POS ≤ OUT_CAP` with every byte below it written, `ENC_OUT` canonical and below `OUT_CAP`, `|DEC_IN| ≤ IN_CAP`,
`BLK_MAX` positive or unbounded, nothing held by the bulk path (R7, R34, R37, R38, R41, R42, R43; the canonical form is log 8 and the idle scratch is log 10). -/
def Obligations.StepKeepsInvariant : Prop :=
  (∀ s t : State, s.Wf → step s = .next t → t.Wf)
    ∧ ∀ (i : Instr) (s t : State), s.Wf → exec i s = .next t → t.Wf

/-- "Error entry: a command that returns a status other than `OK` has changed no state" and returns no result (R302, R68). -/
def Obligations.ErrorsChangeNoState : Prop :=
  ∀ (i : Instr) (s t : State) (e : Status) (r : Result), i.isBulkRecord = false → exec i s = .next t →
    t.answered e r → e ≠ .ok → t.sameButReply s ∧ r = .nothing

/-- "every command is available to the host at all times, and no command is privileged" (R320): in every state that meets the
invariant every command has a next state, and so has every record row run on its own, which is the model's choice (logs 9 and
10); in particular the model's own fault (log 8) is not met. -/
def Obligations.EveryCommandCompletes : Prop := ∀ (i : Instr) (s : State), s.Wf → ∃ t, exec i s = .next t

/-- Every command ends with exactly one status, one of those the table of R300 lists for it; a bulk record either ends its command
so or leaves the reply for later (R300, R310 to R313). -/
def Obligations.StatusesReturned : Prop :=
  ∀ (i : Instr) (s t : State), exec i s = .next t →
    (∃ e r, t.answered e r ∧ e ∈ i.statuses) ∨ (i.isBulkRecord = true ∧ t.port.reply = s.port.reply)

/-- The channels and the bulk path share no state: an instruction of one leaves the others, the limits and the pending commands
as they are (R323, R43). -/
def Obligations.ChannelsKeepApart : Prop :=
  ∀ (i : Instr) (s t : State), exec i s = .next t →
    (i.isEnc = true → t.sameOutsideEnc s) ∧ (i.isDec = true → t.sameOutsideDec s)
      ∧ (i.isBulkCommand = true → t.sameButReply s) ∧ (i.isBulkRecord = true → t.sameOutsideBlk s)

/-- "commands of one channel never change the results of the other's" (R323): an instruction's reply and its own channel after it
depend only on that channel and the limits before it. -/
def Obligations.RepliesDependOnOwnChannel : Prop :=
  ∀ (i : Instr) (s s' t : State), s.limits = s'.limits → exec i s = .next t →
    (i.isEnc = true → s.enc = s'.enc →
      ∃ t', exec i s' = .next t' ∧ t'.port.reply = t.port.reply ∧ t'.enc = t.enc)
    ∧ (i.isDec = true → s.dec = s'.dec →
      ∃ t', exec i s' = .next t' ∧ t'.port.reply = t.port.reply ∧ t'.dec = t.dec)
    ∧ (i.isBulkCommand = true → ∃ t', exec i s' = .next t' ∧ t'.port.reply = t.port.reply)

/-- Only reset changes `OUT_CAP`, `IN_CAP` or `BLK_MAX` (R342, R39). -/
def Obligations.LimitsAreConstant : Prop :=
  (∀ (i : Instr) (s t : State), exec i s = .next t → t.limits = s.limits)
    ∧ ∀ s t : State, step s = .next t → t.limits = s.limits

/-- `ENC_STRENGTH` is written only by ENC_SET_STRENGTH, with `s[4:0]`, and `DEC_STRENGTH` only by a reset record, run by DEC_WORD
(R36, R40). -/
def Obligations.StrengthWriters : Prop :=
  ∀ (i : Instr) (s t : State), exec i s = .next t →
    (t.enc.strength ≠ s.enc.strength → ∃ v : Byte, i = .encSetStrength v ∧ t.enc.strength = v.setWidth 5)
    ∧ (t.dec.strength ≠ s.dec.strength → ∃ v : BitVec 5, t.dec.strength = v
        ∧ (i = .resetRec v ∨ i = .decWord ∧ s.dec.input.head? = some (0xC0 ||| v.setWidth 8)))

/-- `ENC_POS` is advanced only by a successful ENC_WORD, by the bytes written, and set to 0 only by ENC_EMPTY_OUTPUT (R38). -/
def Obligations.PosWriters : Prop :=
  ∀ (i : Instr) (s t : State), exec i s = .next t → t.enc.pos ≠ s.enc.pos →
    (∃ w n, i = .encWord w ∧ t.answered .ok (.written n) ∧ t.enc.pos = s.enc.pos + n)
      ∨ (i = .encEmptyOutput ∧ t.enc.pos = 0)

/-- No window's capacity changes but by `WinClear`: in the encoder from ENC_SET_STRENGTH and ENC_RESET, in the decoder from
DEC_RESET and a reset record, run by DEC_WORD with its lead byte at the head of the queue; each leaves the window empty, or with
the reset record's word alone and the capacity its strength gives (R136). -/
def Obligations.CapacityChangesOnlyByClear : Prop :=
  ∀ (i : Instr) (s t : State), exec i s = .next t →
    (t.enc.win.cap ≠ s.enc.win.cap →
      (i = .encReset ∨ ∃ v, i = .encSetStrength v) ∧ t.enc.win = Fifo.empty t.enc.win.cap)
    ∧ (t.dec.win.cap ≠ s.dec.win.cap →
      (i = .decReset ∧ t.dec.win = Fifo.empty t.dec.win.cap)
      ∨ ∃ v : BitVec 5, (i = .resetRec v ∨ i = .decWord ∧ s.dec.input.head? = some (0xC0 ||| v.setWidth 8))
          ∧ t.dec.win.cap = v.toNat + 1
          ∧ ∃ w, t.answered .ok (.word w) ∧ t.dec.win = (Fifo.empty t.dec.win.cap).insert w)

/-- Every byte of `ENC_OUT` is as before after every instruction but ENC_WORD, and after ENC_WORD every byte outside the record's
bytes from the old `ENC_POS` on (R60, R63). -/
def Obligations.OnlyEncWordWritesOutput : Prop :=
  ∀ (i : Instr) (s t : State), exec i s = .next t →
    ((∀ w, i ≠ .encWord w) → ∀ a, t.enc.out.read a = s.enc.out.read a)
    ∧ ∀ w, i = .encWord w →
        ∀ a, (a < s.enc.pos ∨ s.enc.pos + (s.enc.record w).length ≤ a) → t.enc.out.read a = s.enc.out.read a

/-- ENC_RESET, DEC_RESET, ENC_EMPTY_OUTPUT and DEC_DISCARD are idempotent; ENC_READ_OUT, ENC_QUERY and DEC_QUERY have no side
effect and are idempotent (R69). -/
def Obligations.IdempotentCommands : Prop :=
  ∀ (i : Instr) (s t : State), exec i s = .next t →
    (i = .encReset ∨ i = .decReset ∨ i = .encEmptyOutput ∨ i = .decDiscard → exec i t = .next t)
    ∧ ((∃ off len, i = .encReadOut off len) ∨ i = .encQuery ∨ i = .decQuery →
        t.sameButReply s ∧ exec i t = .next t)
end

