-- ==== Sys2Proof/Laws/Operands.lean ====
section
/-! SUPPORT. Operand forms: lead-byte fields, byte order, and the port's naturals and sequences read back as written. -/

namespace Sys2Proof.Machine

@[simp] theorem leBytes_length (w : Word) (n : Nat) : (leBytes w n).length = n := by
  simp [leBytes]

@[simp] theorem payload_length (w : Word) (d : Nat) : (payload w d).length = d := leBytes_length w d

@[simp] theorem keyRecord_length (i d : Nat) (w : Word) : (keyRecord i d w).length = d + 1 := by
  simp [keyRecord]

@[simp] theorem resetRecord_length (v : BitVec 5) (w : Word) : (resetRecord v w).length = 5 := by
  simp [resetRecord]

theorem leBytes_four (w : Word) : leBytes w 4 = [byteOf w 0, byteOf w 1, byteOf w 2, byteOf w 3] := rfl

theorem le32_bytes (w : Word) : le32 (byteOf w 0) (byteOf w 1) (byteOf w 2) (byteOf w 3) = w := by
  apply BitVec.eq_of_getElem_eq
  intro i hi
  simp only [le32, byteOf, BitVec.getElem_or, BitVec.getElem_shiftLeft, BitVec.getElem_setWidth,
    BitVec.getLsbD_extractLsb']
  have hw : w[i] = w.getLsbD i := by rw [BitVec.getLsbD_eq_getElem hi]
  rw [hw]
  by_cases h1 : i < 8
  · simp [h1, show i < 16 by omega, show i < 24 by omega]
  · by_cases h2 : i < 16
    · simp [h1, h2, show i < 24 by omega, show i - 8 < 8 by omega, show 8 + (i - 8) = i by omega]
    · by_cases h3 : i < 24
      · simp [h1, h2, h3, show ¬ i - 8 < 8 by omega, show i - 16 < 8 by omega, show 16 + (i - 16) = i by omega]
      · simp [h1, h2, h3, show ¬ i - 8 < 8 by omega, show ¬ i - 16 < 8 by omega, show i - 24 < 8 by omega,
          show 24 + (i - 24) = i by omega]

theorem tagOf_lt (b : Byte) : tagOf b < 8 := by
  revert b; decide

theorem tagOf_keyPack (d : Fin 8) (i : BitVec 5) : tagOf (keyPack d i.toNat) = d := by
  revert d i; decide

theorem low5_keyPack (d : Fin 8) (i : BitVec 5) : low5 (keyPack d i.toNat) = i := by
  revert d i; decide

/-- A lead byte is its class and its low bits. -/
theorem keyPack_tagOf_low5 (b : Byte) : keyPack (tagOf b) (low5 b).toNat = b := by
  revert b; decide

theorem resetLead_eq_keyPack (v : BitVec 5) : (0xC0 ||| v.setWidth 8 : Byte) = keyPack 6 v.toNat := by
  revert v; decide

theorem headerLead_eq_keyPack (v : BitVec 5) : (v.setWidth 8 : Byte) = keyPack 0 v.toNat := by
  revert v; decide

/-- The bytes of a word assembled from four bytes are those bytes (R10). -/
theorem leBytes_le32 (b0 b1 b2 b3 : Byte) : leBytes (le32 b0 b1 b2 b3) 4 = [b0, b1, b2, b3] := by
  have h : ∀ j, j < 4 → byteOf (le32 b0 b1 b2 b3) j = [b0, b1, b2, b3][j]! := by
    intro j hj
    apply BitVec.eq_of_getLsbD_eq
    intro k hk
    interval_cases j <;> interval_cases k <;> simp [byteOf, le32]
  rw [leBytes_four, h 0 (by decide), h 1 (by decide), h 2 (by decide), h 3 (by decide)]
  rfl

end Sys2Proof.Machine

namespace Sys2Proof

open Sys2Proof.Machine

theorem readWord_leBytes (w : Word) (rest : List Byte) : readWord (leBytes w 4 ++ rest) = some (w, rest) := by
  simp [leBytes_four, readWord, le32_bytes]

theorem readNat_natDigits (fuel n : Nat) (h : n ≤ fuel) (rest : List Byte) :
    readNat (natDigits fuel n ++ rest) = some (n, rest) := by
  induction fuel generalizing n with
  | zero =>
    obtain rfl : n = 0 := by omega
    simp [natDigits, readNat]
  | succ fuel ih =>
    simp only [natDigits]
    split
    · next hn => simp [readNat, Nat.mod_eq_of_lt (show n < 256 by omega), hn]
    · next hn =>
      have hd : n / 128 ≤ fuel := by omega
      have hb : (BitVec.ofNat 8 (n % 128 + 128)).toNat = n % 128 + 128 := by
        simp only [BitVec.toNat_ofNat]; omega
      simp only [List.cons_append, readNat, hb, ih _ hd]
      rw [if_neg (by omega)]
      simp only [Option.map_some]
      congr 2
      omega

@[simp] theorem readNat_putNat (n : Nat) (rest : List Byte) : readNat (putNat n ++ rest) = some (n, rest) :=
  readNat_natDigits n n (Nat.le_refl n) rest

@[simp] theorem readSeq_putSeq (b rest : List Byte) : readSeq (putSeq b ++ rest) = some (b, rest) := by
  simp [readSeq, putSeq, List.append_assoc]

end Sys2Proof
end

