-- ==== Sys2Proof/Laws/Bulk.lean ====
section
/-! SUPPORT. The bulk path: the words of a block, and the record of a key-position byte. -/

namespace Sys2Proof.Machine

/-- A block of `4 n` bytes is `n` words, and it is the bytes of its words, each low byte first (R252). -/
theorem blockWords_spec (n : Nat) (b : List Byte) (h : b.length = 4 * n) :
    (blockWords b).length = n ∧ (blockWords b).flatMap (leBytes · 4) = b := by
  induction n generalizing b with
  | zero =>
    obtain rfl : b = [] := List.length_eq_zero_iff.1 h
    exact ⟨rfl, rfl⟩
  | succ n ih =>
    match b, h with
    | b0 :: b1 :: b2 :: b3 :: r, h =>
      obtain ⟨hl, hb⟩ := ih r (by simp only [List.length_cons] at h; omega)
      exact ⟨by simp [blockWords, hl], by simp [blockWords, leBytes_le32, hb]⟩
    | [], h | [_], h | [_, _], h | [_, _, _], h => simp only [List.length_cons, List.length_nil] at h; omega

/-- A key-position byte of difference 5 to 7 is reserved; any other is a key (R262). -/
theorem bulkRecord_eq (k : Byte) (sc : Scratch) :
    bulkRecord k sc = if 5 ≤ tagOf k then .error .reservedKey else bulkKey (tagOf k) (low5 k) sc := rfl

end Sys2Proof.Machine
end

