-- ==== Sys2Proof/Laws/State.lean ====
section
/-! SUPPORT. One lemma per field per update of the state, and for the two ends of a command, all by rfl, so that no later
proof unfolds a record update. -/

namespace Sys2Proof.Machine

variable (s : State)

@[simp] theorem State.withEnc_enc (e : Encoder) : (s.withEnc e).enc = e := rfl

@[simp] theorem State.withEnc_dec (e : Encoder) : (s.withEnc e).dec = s.dec := rfl

@[simp] theorem State.withEnc_blk (e : Encoder) : (s.withEnc e).blk = s.blk := rfl

@[simp] theorem State.withEnc_limits (e : Encoder) : (s.withEnc e).limits = s.limits := rfl

@[simp] theorem State.withEnc_pending (e : Encoder) : (s.withEnc e).port.pending = s.port.pending := rfl

@[simp] theorem State.withEnc_reply (e : Encoder) : (s.withEnc e).port.reply = s.port.reply := rfl

@[simp] theorem State.withDec_enc (d : Decoder) : (s.withDec d).enc = s.enc := rfl

@[simp] theorem State.withDec_dec (d : Decoder) : (s.withDec d).dec = d := rfl

@[simp] theorem State.withDec_blk (d : Decoder) : (s.withDec d).blk = s.blk := rfl

@[simp] theorem State.withDec_limits (d : Decoder) : (s.withDec d).limits = s.limits := rfl

@[simp] theorem State.withDec_pending (d : Decoder) : (s.withDec d).port.pending = s.port.pending := rfl

@[simp] theorem State.withDec_reply (d : Decoder) : (s.withDec d).port.reply = s.port.reply := rfl

@[simp] theorem State.withBlk_enc (b : Scratch) : (s.withBlk b).enc = s.enc := rfl

@[simp] theorem State.withBlk_dec (b : Scratch) : (s.withBlk b).dec = s.dec := rfl

@[simp] theorem State.withBlk_blk (b : Scratch) : (s.withBlk b).blk = b := rfl

@[simp] theorem State.withBlk_limits (b : Scratch) : (s.withBlk b).limits = s.limits := rfl

@[simp] theorem State.withBlk_pending (b : Scratch) : (s.withBlk b).port.pending = s.port.pending := rfl

@[simp] theorem State.withBlk_reply (b : Scratch) : (s.withBlk b).port.reply = s.port.reply := rfl

@[simp] theorem State.withReply_enc (r : Reply) : (s.withReply r).enc = s.enc := rfl

@[simp] theorem State.withReply_dec (r : Reply) : (s.withReply r).dec = s.dec := rfl

@[simp] theorem State.withReply_blk (r : Reply) : (s.withReply r).blk = s.blk := rfl

@[simp] theorem State.withReply_limits (r : Reply) : (s.withReply r).limits = s.limits := rfl

@[simp] theorem State.withReply_pending (r : Reply) : (s.withReply r).port.pending = s.port.pending := rfl

@[simp] theorem State.withReply_reply (r : Reply) : (s.withReply r).port.reply = some r := rfl

@[simp] theorem State.withPending_enc (bs : List Byte) : (s.withPending bs).enc = s.enc := rfl

@[simp] theorem State.withPending_dec (bs : List Byte) : (s.withPending bs).dec = s.dec := rfl

@[simp] theorem State.withPending_blk (bs : List Byte) : (s.withPending bs).blk = s.blk := rfl

@[simp] theorem State.withPending_limits (bs : List Byte) : (s.withPending bs).limits = s.limits := rfl

@[simp] theorem State.withPending_pending (bs : List Byte) : (s.withPending bs).port.pending = bs := rfl

@[simp] theorem State.withPending_reply (bs : List Byte) : (s.withPending bs).port.reply = s.port.reply := rfl

@[simp] theorem complete_eq (r : Result) : complete r s = .next (s.withReply ⟨.ok, r⟩) := rfl

@[simp] theorem raise_eq (e : Status) : raise e s = .next (s.withReply ⟨e, .nothing⟩) := rfl

@[simp] theorem Encoder.outAppend_strength (e : Encoder) (b : List Byte) : (e.outAppend b).strength = e.strength := rfl

@[simp] theorem Encoder.outAppend_win (e : Encoder) (b : List Byte) : (e.outAppend b).win = e.win := rfl

@[simp] theorem Encoder.outAppend_out (e : Encoder) (b : List Byte) : (e.outAppend b).out = e.out.writeBytes e.pos b := rfl

@[simp] theorem Encoder.outAppend_pos (e : Encoder) (b : List Byte) : (e.outAppend b).pos = e.pos + b.length := rfl

@[simp] theorem Decoder.inConsume_strength (d : Decoder) (n : Nat) : (d.inConsume n).strength = d.strength := rfl

@[simp] theorem Decoder.inConsume_win (d : Decoder) (n : Nat) : (d.inConsume n).win = d.win := rfl

@[simp] theorem Decoder.inConsume_input (d : Decoder) (n : Nat) : (d.inConsume n).input = d.input.drop n := rfl

@[simp] theorem Fifo.empty_slots (c : Nat) : (Fifo.empty c).slots = [] := rfl

@[simp] theorem Fifo.empty_oldest (c : Nat) : (Fifo.empty c).oldest = 0 := rfl

@[simp] theorem Fifo.empty_cap (c : Nat) : (Fifo.empty c).cap = c := rfl

@[simp] theorem Fifo.empty_count (c : Nat) : (Fifo.empty c).count = 0 := rfl

@[simp] theorem Fifo.clear_eq (f : Fifo) (c : Nat) : f.clear c = Fifo.empty c := rfl

/-- Two states are equal when their parts are. -/
theorem State.ext_parts {s t : State} (he : s.enc = t.enc) (hd : s.dec = t.dec) (hb : s.blk = t.blk)
    (hl : s.limits = t.limits) (hp : s.port = t.port) : s = t := by
  cases s; cases t; simp_all

end Sys2Proof.Machine
end

