-- ==== Sys2Proof/Laws/Exec.lean ====
section
/-! SUPPORT. What each instruction can do, said once: the cases of the shared record operations, and that an instruction of a
channel reads and writes that channel alone. -/

namespace Sys2Proof.Machine

@[simp] theorem exec_streamKeyRow (d : Fin 5) (i : BitVec 5) (s : State) :
    exec (streamKeyRow d i) s = streamKey d i s := by
  match d with
  | 0 | 1 | 2 | 3 | 4 => rfl

@[simp] theorem exec_bulkKeyRow (d : Fin 5) (i : BitVec 5) (s : State) :
    exec (bulkKeyRow d i) s = onScratch (bulkKey d i) s := by
  match d with
  | 0 | 1 | 2 | 3 | 4 => rfl

/-- The decoder state and the reply of a stream key record, which depend on the decoder alone. -/
theorem streamKey_cases (d : Nat) (i : BitVec 5) (s : State) :
    (s.dec.win.read i.toNat = none ∧ streamKey d i s = .next (s.withReply ⟨.invalidBackReference, .nothing⟩))
    ∨ (∃ e, s.dec.win.read i.toNat = some e ∧ s.dec.input.length < 1 + d
        ∧ streamKey d i s = .next (s.withReply ⟨.needMoreData, .nothing⟩))
    ∨ ∃ e w, s.dec.win.read i.toNat = some e ∧ 1 + d ≤ s.dec.input.length
        ∧ w = rebuild e d ((s.dec.input.drop 1).take d)
        ∧ streamKey d i s = .next ((s.withDec { s.dec.inConsume (1 + d) with win := s.dec.win.insert w }).withReply
            ⟨.ok, .word w⟩) := by
  unfold streamKey
  cases h : s.dec.win.read i.toNat with
  | none => exact .inl ⟨rfl, rfl⟩
  | some e =>
    by_cases hl : s.dec.input.length < 1 + d
    · exact .inr (.inl ⟨e, rfl, hl, by simp [hl]⟩)
    · exact .inr (.inr ⟨e, _, rfl, by omega, rfl, by simp [hl]⟩)

/-- A reset record waits for its 5 bytes or takes them. -/
theorem execResetRec_cases (v : BitVec 5) (s : State) :
    (s.dec.input.length < 5 ∧ execResetRec v s = .next (s.withReply ⟨.needMoreData, .nothing⟩))
    ∨ ∃ b0 b1 b2 b3 b4 rest, s.dec.input = b0 :: b1 :: b2 :: b3 :: b4 :: rest
        ∧ execResetRec v s = .next ((s.withDec
            { strength := v, win := (Fifo.empty (v.toNat + 1)).insert (le32 b1 b2 b3 b4), input := rest }).withReply
              ⟨.ok, .word (le32 b1 b2 b3 b4)⟩) := by
  unfold execResetRec
  split
  · next b0 b1 b2 b3 b4 rest h => exact .inr ⟨b0, b1, b2, b3, b4, rest, h, rfl⟩
  · next h =>
    refine .inl ⟨?_, rfl⟩
    match hi : s.dec.input with
    | [] | [_] | [_, _] | [_, _, _] | [_, _, _, _] => simp
    | b0 :: b1 :: b2 :: b3 :: b4 :: rest => exact absurd hi (h b0 b1 b2 b3 b4 rest)

/-- DEC_WORD runs the row its lead byte decodes to. -/
theorem runStreamRecord_eq_exec (b : Byte) (s : State) : runStreamRecord b s = exec (decodeStream b) s := by
  unfold runStreamRecord decodeStream
  generalize tagOf b = t
  match t with
  | 0 | 1 | 2 | 3 | 4 | 5 | 6 => rfl
  | _ + 7 => rfl

/-- A bulk record on a scratch ends its command with an error or leaves a scratch. -/
theorem onScratch_cases (f : Scratch → Except Status Scratch) (s : State) :
    (∃ sc, f s.blk = .ok sc ∧ onScratch f s = .next (s.withBlk sc))
    ∨ ∃ e, f s.blk = .error e ∧ onScratch f s = .next ((s.withBlk Scratch.idle).withReply ⟨e, .nothing⟩) := by
  unfold onScratch
  cases h : f s.blk with
  | ok sc => exact .inl ⟨sc, rfl, rfl⟩
  | error e => exact .inr ⟨e, rfl, rfl⟩

/-- The cases of a body key. -/
theorem bulkKey_cases (d : Nat) (i : BitVec 5) (sc : Scratch) :
    (sc.win.read i.toNat = none ∧ bulkKey d i sc = .error .invalidBackReference)
    ∨ (∃ e, sc.win.read i.toNat = some e ∧ sc.input.length < 1 + d ∧ bulkKey d i sc = .error .malformedBoundary)
    ∨ ∃ e w, sc.win.read i.toNat = some e ∧ 1 + d ≤ sc.input.length
        ∧ w = rebuild e d ((sc.input.drop 1).take d)
        ∧ bulkKey d i sc = .ok { win := sc.win.insert w, input := sc.input.drop (1 + d), out := sc.out ++ leBytes w 4 } := by
  unfold bulkKey
  cases h : sc.win.read i.toNat with
  | none => exact .inl ⟨rfl, rfl⟩
  | some e =>
    by_cases hl : sc.input.length < 1 + d
    · exact .inr (.inl ⟨e, rfl, hl, by simp [hl]⟩)
    · exact .inr (.inr ⟨e, _, rfl, by omega, rfl, by simp [hl]⟩)

/-- The cases of a compressed block's header. -/
theorem bulkHeader_cases (v : BitVec 5) (sc : Scratch) :
    (sc.input.length < 5 ∧ bulkHeader v sc = .error .malformedBoundary)
    ∨ ∃ b0 b1 b2 b3 b4 rest, sc.input = b0 :: b1 :: b2 :: b3 :: b4 :: rest
        ∧ bulkHeader v sc = .ok ⟨(Fifo.empty (v.toNat + 1)).insert (le32 b1 b2 b3 b4), rest,
            leBytes (le32 b1 b2 b3 b4) 4⟩ := by
  unfold bulkHeader
  split
  · next b0 b1 b2 b3 b4 rest h => exact .inr ⟨b0, b1, b2, b3, b4, rest, h, rfl⟩
  · next h =>
    refine .inl ⟨?_, rfl⟩
    match hi : sc.input with
    | [] | [_] | [_, _] | [_, _, _] | [_, _, _, _] => simp
    | b0 :: b1 :: b2 :: b3 :: b4 :: rest => exact absurd hi (h b0 b1 b2 b3 b4 rest)

/-- ENC_WORD is refused for want of room, or appends its record and inserts its word. -/
theorem execEncWord_cases (w : Word) (s : State) :
    (s.limits.outCap < s.enc.pos + (s.enc.record w).length
      ∧ exec (.encWord w) s = .next (s.withReply ⟨.bufferFull, .nothing⟩))
    ∨ (s.enc.pos + (s.enc.record w).length ≤ s.limits.outCap
      ∧ exec (.encWord w) s = .next ((s.withEnc
          { s.enc.outAppend (s.enc.record w) with win := s.enc.win.insert w }).withReply
            ⟨.ok, .written (s.enc.record w).length⟩)) := by
  simp only [exec, execEncWord]
  by_cases h : s.enc.pos + (s.enc.record w).length > s.limits.outCap
  · exact .inl ⟨h, by simp [h]⟩
  · exact .inr ⟨by omega, by simp [h]⟩

/-- An instruction of the decoder channel reads the decoder and the limits alone, and writes the decoder and the reply alone. -/
theorem exec_dec_local (i : Instr) (s : State) (hi : i.isDec = true) :
    ∃ d r, ∀ s' : State, s'.dec = s.dec → s'.limits = s.limits →
      exec i s' = .next ((s'.withDec d).withReply r) := by
  have hkey : ∀ (d : Nat) (i : BitVec 5) (s : State), ∃ d' r, ∀ s' : State, s'.dec = s.dec → s'.limits = s.limits →
      streamKey d i s' = .next ((s'.withDec d').withReply r) := by
    intro d i s
    rcases streamKey_cases d i s with ⟨h, -⟩ | ⟨e, h, hl, -⟩ | ⟨e, w, h, hl, hw, -⟩
    · exact ⟨s.dec, _, fun s' hd _ => by simp only [streamKey, hd, h]; rw [← hd]; rfl⟩
    · exact ⟨s.dec, _, fun s' hd _ => by simp only [streamKey, hd, h, if_pos hl]; rw [← hd]; rfl⟩
    · exact ⟨_, _, fun s' hd _ => by simp only [streamKey, hd, h, if_neg (Nat.not_lt.2 hl)]; rfl⟩
  have hreset : ∀ (v : BitVec 5) (s : State), ∃ d' r, ∀ s' : State, s'.dec = s.dec → s'.limits = s.limits →
      execResetRec v s' = .next ((s'.withDec d').withReply r) := by
    intro v s
    rcases execResetRec_cases v s with ⟨h, -⟩ | ⟨b0, b1, b2, b3, b4, rest, h, -⟩
    · refine ⟨s.dec, ⟨.needMoreData, .nothing⟩, fun s' hd _ => ?_⟩
      rcases execResetRec_cases v s' with ⟨-, e⟩ | ⟨b0, b1, b2, b3, b4, rest, h', -⟩
      · rw [e, ← hd]; rfl
      · exact absurd h (by rw [← hd, h']; simp)
    · exact ⟨_, _, fun s' hd _ => by simp only [execResetRec, hd, h]; rfl⟩
  have hraise : ∀ (e : Status) (s : State), ∃ d' r, ∀ s' : State, s'.dec = s.dec → s'.limits = s.limits →
      raise e s' = .next ((s'.withDec d').withReply r) :=
    fun e s => ⟨s.dec, _, fun s' hd _ => by rw [← hd]; rfl⟩
  cases i with
  | keyD0 i => exact hkey 0 i s
  | keyD1 i => exact hkey 1 i s
  | keyD2 i => exact hkey 2 i s
  | keyD3 i => exact hkey 3 i s
  | keyD4 i => exact hkey 4 i s
  | rsvdKeyD5 b => exact hraise _ s
  | escInStream b => exact hraise _ s
  | resetRec v => exact hreset v s
  | decAugment b =>
    simp only [exec, execDecAugment]
    by_cases h0 : b.length = 0
    · simp only [h0, if_true]; exact hraise _ s
    · by_cases hw : within (s.dec.input.length + b.length) s.limits.inCap = true
      · exact ⟨_, _, fun s' hd hl => by rw [if_neg h0, hd, hl, if_pos hw]; rfl⟩
      · exact ⟨s.dec, _, fun s' hd hl => by rw [if_neg h0, hd, hl, if_neg hw, ← hd]; rfl⟩
  | decWord =>
    simp only [exec, execDecWord, Decoder.inPeek]
    cases hp : s.dec.input[0]? with
    | none => exact ⟨s.dec, _, fun s' hd _ => by rw [hd, hp, ← hd]; rfl⟩
    | some b =>
      have hrun : ∃ d' r, ∀ s' : State, s'.dec = s.dec → s'.limits = s.limits →
          runStreamRecord b s' = .next ((s'.withDec d').withReply r) := by
        unfold runStreamRecord
        split
        · exact hkey 0 _ s
        · exact hkey 1 _ s
        · exact hkey 2 _ s
        · exact hkey 3 _ s
        · exact hkey 4 _ s
        · exact hraise _ s
        · exact hreset _ s
        · exact hraise _ s
      obtain ⟨d', r, h⟩ := hrun
      exact ⟨d', r, fun s' hd hl => by simp only [hd, hp]; exact h s' hd hl⟩
  | decReset => exact ⟨_, _, fun s' hd _ => by simp only [exec, execDecReset, hd]; rfl⟩
  | decDiscard => exact ⟨_, _, fun s' hd _ => by simp only [exec, execDecDiscard, hd]; rfl⟩
  | decQuery =>
    refine ⟨s.dec, ⟨.ok, .decRegs s.dec.strength s.dec.input.length s.dec.win.count⟩, fun s' hd _ => ?_⟩
    rw [← hd]; rfl
  | _ => exact absurd (show false = true from hi) Bool.false_ne_true

/-- An instruction of the encoder channel reads the encoder and the limits alone, and writes the encoder and the reply alone; it
stops only where ENC_READ_OUT meets a byte that was never written. -/
theorem exec_enc_local (i : Instr) (s : State) (hi : i.isEnc = true) :
    (∃ e r, ∀ s' : State, s'.enc = s.enc → s'.limits = s.limits → exec i s' = .next ((s'.withEnc e).withReply r))
    ∨ (∃ off len, i = .encReadOut off len ∧ off + len ≤ s.enc.pos ∧ s.enc.out.readBytes off len = none
        ∧ exec i s = .fault .outputByteAbsent) := by
  cases i with
  | encWord w =>
    left
    simp only [exec, execEncWord]
    by_cases h : s.enc.pos + (s.enc.record w).length > s.limits.outCap
    · exact ⟨s.enc, _, fun s' he hl => by rw [he, hl, if_pos h, ← he]; rfl⟩
    · exact ⟨_, _, fun s' he hl => by rw [he, hl, if_neg h]; rfl⟩
  | encSetStrength v =>
    left
    simp only [exec, execEncSetStrength]
    by_cases h : v.toNat > 31
    · exact ⟨s.enc, _, fun s' he _ => by rw [if_pos h, ← he]; rfl⟩
    · exact ⟨_, _, fun s' he _ => by rw [if_neg h, he]; rfl⟩
  | encReset => exact .inl ⟨_, _, fun s' he _ => by simp only [exec, execEncReset, he]; rfl⟩
  | encEmptyOutput => exact .inl ⟨_, _, fun s' he _ => by simp only [exec, execEncEmptyOutput, he]; rfl⟩
  | encReadOut off len =>
    simp only [exec, execEncReadOut]
    by_cases h : off + len > s.enc.pos
    · exact .inl ⟨s.enc, _, fun s' he _ => by rw [he, if_pos h, ← he]; rfl⟩
    · cases hr : s.enc.out.readBytes off len with
      | some b => exact .inl ⟨s.enc, _, fun s' he _ => by rw [he, if_neg h, hr, ← he]; rfl⟩
      | none => exact .inr ⟨off, len, rfl, by omega, hr, by rw [if_neg h]⟩
  | encQuery =>
    refine .inl ⟨s.enc, ⟨.ok, .encRegs s.enc.strength s.enc.pos s.enc.win.count⟩, fun s' he _ => ?_⟩
    rw [← he]; rfl
  | _ => exact absurd (show false = true from hi) Bool.false_ne_true

/-- A bulk command's reply depends on its operands and the limits alone, and it writes nothing else. -/
theorem exec_bulk_local (i : Instr) (s : State) (hi : i.isBulkCommand = true) :
    ∃ r, ∀ s' : State, s'.limits = s.limits → exec i s' = .next (s'.withReply r) := by
  cases i with
  | blkCompress b v =>
    simp only [exec, execBlkCompress]
    by_cases h0 : b.length = 0
    · exact ⟨_, fun s' _ => by rw [if_pos h0]; rfl⟩
    · by_cases h1 : b.length % 4 ≠ 0
      · exact ⟨_, fun s' _ => by rw [if_neg h0, if_pos h1]; rfl⟩
      · by_cases h2 : (!within b.length s.limits.blkMax) = true
        · exact ⟨_, fun s' hl => by rw [if_neg h0, if_neg h1, hl, if_pos h2]; rfl⟩
        · by_cases h3 : v.toNat > 31
          · exact ⟨_, fun s' hl => by rw [if_neg h0, if_neg h1, hl, if_neg h2, if_pos h3]; rfl⟩
          · exact ⟨_, fun s' hl => by rw [if_neg h0, if_neg h1, hl, if_neg h2, if_neg h3]; rfl⟩
  | blkDecompress b =>
    simp only [exec, execBlkDecompress]
    by_cases h0 : b.length = 0
    · exact ⟨_, fun s' _ => by rw [if_pos h0]; rfl⟩
    · by_cases h2 : (!within b.length s.limits.blkMaxEscaped) = true
      · exact ⟨_, fun s' hl => by rw [if_neg h0, hl, if_pos h2]; rfl⟩
      · cases hd : decompressBlock b with
        | ok r => exact ⟨_, fun s' hl => by rw [if_neg h0, hl, if_neg h2]; rfl⟩
        | error e => exact ⟨_, fun s' hl => by rw [if_neg h0, hl, if_neg h2]; rfl⟩
  | _ => exact absurd (show false = true from hi) Bool.false_ne_true

/-- A bulk record row leaves a scratch, or ends its command with a reply and drops the scratch. -/
theorem exec_bulkRecord_cases (i : Instr) (s : State) (hi : i.isBulkRecord = true) :
    (∃ sc, exec i s = .next (s.withBlk sc)) ∨ ∃ r, exec i s = .next ((s.withBlk Scratch.idle).withReply r) := by
  have hon : ∀ f : Scratch → Except Status Scratch, (∃ sc, onScratch f s = .next (s.withBlk sc))
      ∨ ∃ r, onScratch f s = .next ((s.withBlk Scratch.idle).withReply r) := fun f =>
    (onScratch_cases f s).imp (fun ⟨sc, _, h⟩ => ⟨sc, h⟩) (fun ⟨_, _, h⟩ => ⟨_, h⟩)
  cases i with
  | blkHdr v => exact hon _
  | blkHdrUnproduced20To3F h => exact hon _
  | blkHdrUnproduced40To7F h => exact hon _
  | blkHdrUnproduced80ToBF h => exact hon _
  | blkHdrUnproducedC0ToDF h => exact hon _
  | blkEsc h => exact .inr ⟨_, rfl⟩
  | blkKeyD0 i => exact hon _
  | blkKeyD1 i => exact hon _
  | blkKeyD2 i => exact hon _
  | blkKeyD3 i => exact hon _
  | blkKeyD4 i => exact hon _
  | blkRsvdKeyD5 b => exact .inr ⟨_, rfl⟩
  | blkRsvdKeyD6D7 b => exact .inr ⟨_, rfl⟩
  | _ => exact absurd (show false = true from hi) Bool.false_ne_true

/-- With no bulk command in progress a bulk record row ends at once, with a reply, and nothing is held. -/
theorem exec_bulkRecord_idle {i : Instr} {s t : State} (hi : i.isBulkRecord = true) (hb : s.blk = Scratch.idle)
    (h : exec i s = .next t) : ∃ r, t = (s.withBlk Scratch.idle).withReply r := by
  have hhead : ∀ v, onScratch (bulkHeader v) s = .next t → ∃ r, t = (s.withBlk Scratch.idle).withReply r := by
    intro v h
    rcases onScratch_cases (bulkHeader v) s with ⟨sc, h1, h2⟩ | ⟨e, h1, h2⟩
    · rw [hb] at h1; cases h1
    · rw [h2] at h; cases h; exact ⟨_, rfl⟩
  have hkey : ∀ d j, onScratch (bulkKey d j) s = .next t → ∃ r, t = (s.withBlk Scratch.idle).withReply r := by
    intro d j h
    rcases onScratch_cases (bulkKey d j) s with ⟨sc, h1, h2⟩ | ⟨e, h1, h2⟩
    · rw [hb] at h1
      rcases bulkKey_cases d j Scratch.idle with ⟨_, h3⟩ | ⟨_, h4, _⟩ | ⟨_, _, h4, _⟩
      · rw [h3] at h1; cases h1
      · simp [Scratch.idle, Fifo.read] at h4
      · simp [Scratch.idle, Fifo.read] at h4
    · rw [h2] at h; cases h; exact ⟨_, rfl⟩
  cases i with
  | blkHdr v => exact hhead _ h
  | blkHdrUnproduced20To3F b => exact hhead _ h
  | blkHdrUnproduced40To7F b => exact hhead _ h
  | blkHdrUnproduced80ToBF b => exact hhead _ h
  | blkHdrUnproducedC0ToDF b => exact hhead _ h
  | blkEsc b => cases h; exact ⟨_, rfl⟩
  | blkKeyD0 i => exact hkey _ _ h
  | blkKeyD1 i => exact hkey _ _ h
  | blkKeyD2 i => exact hkey _ _ h
  | blkKeyD3 i => exact hkey _ _ h
  | blkKeyD4 i => exact hkey _ _ h
  | blkRsvdKeyD5 b => cases h; exact ⟨_, rfl⟩
  | blkRsvdKeyD6D7 b => cases h; exact ⟨_, rfl⟩
  | _ => exact absurd (show false = true from hi) Bool.false_ne_true

/-- What DEC_WORD can do: raise a status and change nothing, take a key record, or take a reset record. -/
theorem execDecWord_cases (s : State) :
    (∃ e, exec .decWord s = .next (s.withReply ⟨e, .nothing⟩)
      ∧ e ∈ [Status.needMoreData, .unsupportedEscapeInStream, .invalidBackReference, .reservedKey])
    ∨ (∃ n w, exec .decWord s
        = .next ((s.withDec { s.dec.inConsume n with win := s.dec.win.insert w }).withReply ⟨.ok, .word w⟩))
    ∨ ∃ (v : BitVec 5) (w : Word) (read rest : List Byte), s.dec.input = read ++ rest
        ∧ s.dec.input.head? = some (0xC0 ||| v.setWidth 8)
        ∧ exec .decWord s = .next ((s.withDec
            { strength := v, win := (Fifo.empty (v.toNat + 1)).insert w, input := rest }).withReply ⟨.ok, .word w⟩) := by
  cases hi : s.dec.input with
  | nil => exact .inl ⟨.needMoreData, by simp [exec, execDecWord, Decoder.inPeek, hi], by simp⟩
  | cons b r =>
    have hrun : exec .decWord s = runStreamRecord b s := by simp [exec, execDecWord, Decoder.inPeek, hi]
    have hkey : ∀ d, (∃ e, streamKey d (low5 b) s = .next (s.withReply ⟨e, .nothing⟩)
          ∧ e ∈ [Status.needMoreData, .unsupportedEscapeInStream, .invalidBackReference, .reservedKey])
        ∨ ∃ n w, streamKey d (low5 b) s
            = .next ((s.withDec { s.dec.inConsume n with win := s.dec.win.insert w }).withReply ⟨.ok, .word w⟩) := by
      intro d
      rcases streamKey_cases d (low5 b) s with ⟨_, h⟩ | ⟨_, _, _, h⟩ | ⟨_, w, _, _, _, h⟩
      · exact .inl ⟨_, h, by simp⟩
      · exact .inl ⟨_, h, by simp⟩
      · exact .inr ⟨_, _, h⟩
    have ht := tagOf_lt b
    have hb := keyPack_tagOf_low5 b
    rw [hrun]
    unfold runStreamRecord
    generalize tagOf b = t at *
    match t, ht with
    | 0, _ => exact (hkey 0).imp id .inl
    | 1, _ => exact (hkey 1).imp id .inl
    | 2, _ => exact (hkey 2).imp id .inl
    | 3, _ => exact (hkey 3).imp id .inl
    | 4, _ => exact (hkey 4).imp id .inl
    | 5, _ => exact .inl ⟨_, rfl, by simp⟩
    | 7, _ => exact .inl ⟨_, rfl, by simp⟩
    | 6, _ =>
      rcases execResetRec_cases (low5 b) s with ⟨_, h⟩ | ⟨b0, b1, b2, b3, b4, rest, hin, h⟩
      · exact .inl ⟨_, h, by simp⟩
      · refine .inr (.inr ⟨low5 b, _, [b0, b1, b2, b3, b4], rest, by simp [← hi, hin], ?_, h⟩)
        rw [resetLead_eq_keyPack, hb]
        rfl

/-- What an instruction of the decoder channel can do, with the statuses it may end with (R300). -/
theorem exec_dec_cases {i : Instr} {s t : State} (hi : i.isDec = true) (h : exec i s = .next t) :
    (∃ r, t = s.withReply r ∧ r.status ∈ i.statuses ∧ (r.status ≠ .ok → r.result = .nothing))
    ∨ (∃ n w, t = (s.withDec { s.dec.inConsume n with win := s.dec.win.insert w }).withReply ⟨.ok, .word w⟩
        ∧ Status.ok ∈ i.statuses)
    ∨ (∃ (v : BitVec 5) (w : Word) (read rest : List Byte), s.dec.input = read ++ rest
        ∧ (i = .resetRec v ∨ i = .decWord ∧ s.dec.input.head? = some (0xC0 ||| v.setWidth 8))
        ∧ t = (s.withDec { strength := v, win := (Fifo.empty (v.toNat + 1)).insert w, input := rest }).withReply
            ⟨.ok, .word w⟩)
    ∨ (∃ b, i = .decAugment b ∧ within (s.dec.input.length + b.length) s.limits.inCap = true
        ∧ t = (s.withDec { s.dec with input := s.dec.input ++ b }).withReply ⟨.ok, .nothing⟩)
    ∨ (i = .decReset
        ∧ t = (s.withDec { s.dec with win := Fifo.empty (s.dec.strength.toNat + 1) }).withReply ⟨.ok, .nothing⟩)
    ∨ (i = .decDiscard ∧ t = (s.withDec { s.dec with input := [] }).withReply ⟨.ok, .nothing⟩) := by
  have hkey : ∀ d j, streamKey d j s = .next t →
      (∃ r : Reply, t = s.withReply r ∧ r.status ∈ [Status.ok, .invalidBackReference, .needMoreData]
        ∧ (r.status ≠ .ok → r.result = .nothing))
      ∨ ∃ n w, t = (s.withDec { s.dec.inConsume n with win := s.dec.win.insert w }).withReply ⟨.ok, .word w⟩
        ∧ Status.ok ∈ [Status.ok, .invalidBackReference, .needMoreData] := by
    intro d j hh
    rcases streamKey_cases d j s with ⟨_, h⟩ | ⟨_, _, _, h⟩ | ⟨_, w, _, _, _, h⟩ <;> rw [h] at hh <;> cases hh
    · exact .inl ⟨_, rfl, by simp, fun _ => rfl⟩
    · exact .inl ⟨_, rfl, by simp, fun _ => rfl⟩
    · exact .inr ⟨_, _, rfl, by simp⟩
  cases i with
  | keyD0 i => exact (hkey 0 i h).imp id .inl
  | keyD1 i => exact (hkey 1 i h).imp id .inl
  | keyD2 i => exact (hkey 2 i h).imp id .inl
  | keyD3 i => exact (hkey 3 i h).imp id .inl
  | keyD4 i => exact (hkey 4 i h).imp id .inl
  | rsvdKeyD5 b => cases h; exact .inl ⟨_, rfl, by simp [Instr.statuses], fun _ => rfl⟩
  | escInStream b => cases h; exact .inl ⟨_, rfl, by simp [Instr.statuses], fun _ => rfl⟩
  | resetRec v =>
    rcases execResetRec_cases v s with ⟨_, h'⟩ | ⟨b0, b1, b2, b3, b4, rest, hin, h'⟩ <;>
      rw [show exec (.resetRec v) s = _ from h'] at h <;> cases h
    · exact .inl ⟨_, rfl, by simp [Instr.statuses], fun _ => rfl⟩
    · exact .inr (.inr (.inl ⟨v, _, [b0, b1, b2, b3, b4], rest, by simp [hin], .inl rfl, rfl⟩))
  | decWord =>
    rcases execDecWord_cases s with ⟨e, h', he⟩ | ⟨n, w, h'⟩ | ⟨v, w, read, rest, h1, h2, h'⟩ <;>
      rw [h'] at h <;> cases h
    · exact .inl ⟨_, rfl, by simp [Instr.statuses] at *; tauto, fun _ => rfl⟩
    · exact .inr (.inl ⟨n, w, rfl, by simp [Instr.statuses]⟩)
    · exact .inr (.inr (.inl ⟨v, w, read, rest, h1, .inr ⟨rfl, h2⟩, rfl⟩))
  | decAugment b =>
    simp only [exec, execDecAugment] at h
    split at h
    · cases h; exact .inl ⟨_, rfl, by simp [Instr.statuses], fun _ => rfl⟩
    · split at h
      · next hw => cases h; exact .inr (.inr (.inr (.inl ⟨b, rfl, hw, rfl⟩)))
      · cases h; exact .inl ⟨_, rfl, by simp [Instr.statuses], fun _ => rfl⟩
  | decReset => cases h; exact .inr (.inr (.inr (.inr (.inl ⟨rfl, rfl⟩))))
  | decDiscard => cases h; exact .inr (.inr (.inr (.inr (.inr ⟨rfl, rfl⟩))))
  | decQuery => cases h; exact .inl ⟨_, rfl, by simp [Instr.statuses], by simp⟩
  | _ => exact absurd (show false = true from hi) Bool.false_ne_true

/-- What an instruction of the encoder channel can do when it has a next state, with the statuses it may end with (R300). -/
theorem exec_enc_cases {i : Instr} {s t : State} (hi : i.isEnc = true) (h : exec i s = .next t) :
    (∃ r, t = s.withReply r ∧ r.status ∈ i.statuses ∧ (r.status ≠ .ok → r.result = .nothing))
    ∨ (∃ w, i = .encWord w ∧ s.enc.pos + (s.enc.record w).length ≤ s.limits.outCap
        ∧ t = (s.withEnc { s.enc.outAppend (s.enc.record w) with win := s.enc.win.insert w }).withReply
            ⟨.ok, .written (s.enc.record w).length⟩)
    ∨ (∃ v, i = .encSetStrength v ∧ v.toNat ≤ 31
        ∧ t = (s.withEnc { s.enc with strength := low5 v, win := Fifo.empty (v.toNat + 1) }).withReply ⟨.ok, .nothing⟩)
    ∨ (i = .encReset
        ∧ t = (s.withEnc { s.enc with win := Fifo.empty (s.enc.strength.toNat + 1) }).withReply ⟨.ok, .nothing⟩)
    ∨ (i = .encEmptyOutput ∧ t = (s.withEnc { s.enc with pos := 0 }).withReply ⟨.ok, .nothing⟩) := by
  cases i with
  | encWord w =>
    rcases execEncWord_cases w s with ⟨_, h'⟩ | ⟨hl, h'⟩ <;> rw [h'] at h <;> cases h
    · exact .inl ⟨_, rfl, by simp [Instr.statuses], fun _ => rfl⟩
    · exact .inr (.inl ⟨w, rfl, hl, rfl⟩)
  | encSetStrength v =>
    simp only [exec, execEncSetStrength] at h
    split at h <;> cases h
    · exact .inl ⟨_, rfl, by simp [Instr.statuses], fun _ => rfl⟩
    · exact .inr (.inr (.inl ⟨v, rfl, by omega, rfl⟩))
  | encReset => cases h; exact .inr (.inr (.inr (.inl ⟨rfl, rfl⟩)))
  | encEmptyOutput => cases h; exact .inr (.inr (.inr (.inr ⟨rfl, rfl⟩)))
  | encReadOut off len =>
    simp only [exec, execEncReadOut] at h
    split at h
    · cases h; exact .inl ⟨_, rfl, by simp [Instr.statuses], fun _ => rfl⟩
    · split at h <;> cases h
      exact .inl ⟨_, rfl, by simp [Instr.statuses], by simp⟩
  | encQuery => cases h; exact .inl ⟨_, rfl, by simp [Instr.statuses], by simp⟩
  | _ => exact absurd (show false = true from hi) Bool.false_ne_true

/-- What a bulk command can do. -/
theorem exec_bulk_cases {i : Instr} {s t : State} (hi : i.isBulkCommand = true) (h : exec i s = .next t) :
    ∃ r, t = s.withReply r ∧ r.status ∈ i.statuses ∧ (r.status ≠ .ok → r.result = .nothing) := by
  have hkey : ∀ d j (sc : Scratch) e, bulkKey d j sc = .error e →
      e ∈ [Status.malformedBoundary, .invalidBackReference, .reservedKey] := by
    intro d j sc
    rcases bulkKey_cases d j sc with ⟨_, h⟩ | ⟨_, _, _, h⟩ | ⟨_, _, _, _, _, h⟩ <;> rw [h] <;> simp
  have hbody : ∀ n (sc : Scratch) e, bulkBody n sc = .error e →
      e ∈ [Status.malformedBoundary, .invalidBackReference, .reservedKey] := by
    intro n
    induction n with
    | zero => intro sc e h; cases h
    | succ n ih =>
      intro sc e h
      simp only [bulkBody] at h
      split at h
      · cases h
      · next k r hr =>
        split at h
        · next e' he' =>
          cases h
          simp only [bulkRecord] at he'
          split at he'
          · cases he'; simp
          · exact hkey _ _ _ _ he'
        · exact ih _ _ h
  cases i with
  | blkCompress b v =>
    simp only [exec, execBlkCompress] at h
    repeat' split at h
    all_goals cases h; exact ⟨_, rfl, by simp [Instr.statuses], by simp⟩
  | blkDecompress b =>
    simp only [exec, execBlkDecompress] at h
    split at h
    · cases h; exact ⟨_, rfl, by simp [Instr.statuses], by simp⟩
    · split at h
      · cases h; exact ⟨_, rfl, by simp [Instr.statuses], by simp⟩
      · split at h <;> cases h
        · exact ⟨_, rfl, by simp [Instr.statuses], by simp⟩
        · next e he =>
          refine ⟨_, rfl, ?_, by simp⟩
          have : e ∈ [Status.nullOrEmptyBuffer, .malformedBoundary, .invalidBackReference, .reservedKey] := by
            simp only [decompressBlock] at he
            split at he
            · cases he; simp
            · split at he
              · cases he
              · split at he
                · next e' he' =>
                  cases he
                  rcases bulkHeader_cases _ _ with ⟨_, hh⟩ | ⟨_, _, _, _, _, _, _, hh⟩ <;> rw [hh] at he' <;>
                    cases he'
                  simp
                · split at he <;> cases he
                  next he' => exact List.mem_cons_of_mem _ (hbody _ _ _ he')
          simp [Instr.statuses] at *
          tauto
  | _ => exact absurd (show false = true from hi) Bool.false_ne_true

end Sys2Proof.Machine

namespace Sys2Proof

/-- Every instruction belongs to the encoder channel, the decoder channel, the bulk commands or the bulk records. -/
theorem Instr.isEnc_or_isDec_or_bulk (i : Instr) :
    i.isEnc = true ∨ i.isDec = true ∨ i.isBulkCommand = true ∨ i.isBulkRecord = true := by
  cases i <;> first
    | exact .inl rfl
    | exact .inr (.inl rfl)
    | exact .inr (.inr (.inl rfl))
    | exact .inr (.inr (.inr rfl))

end Sys2Proof
end

