-- ==== Sys2Proof/Laws/HostMap.lean ====
section
/-! SUPPORT. The host's mapping of 64-bit values: the two words rejoin to the value (20_memory.md R75, R76). -/

namespace Sys2Proof.Machine

theorem join64_split64 (v : BitVec 64) : join64 (split64 v).1 (split64 v).2 = v := by
  apply BitVec.eq_of_getLsbD_eq
  intro k hk
  simp only [join64, split64, BitVec.getLsbD_or, BitVec.getLsbD_setWidth, BitVec.getLsbD_extractLsb',
    BitVec.getLsbD_shiftLeft]
  by_cases h : k < 32
  · simp [h, hk]
  · simp [h, hk, show k - 32 < 32 by omega, show k - 32 < 64 by omega, show 32 + (k - 32) = k by omega]

end Sys2Proof.Machine
end

