-- ==== Sys2Proof/Laws/Match.lean ====
section
/-! SUPPORT. The match-and-encode unit: bounds of the difference, the bytes of a rebuilt word, and what holds of a search's
result. -/

namespace Sys2Proof.Machine

theorem classify_le (x : Word) : classify x ≤ 4 := by
  unfold classify; repeat' split
  all_goals omega

/-- A difference of at most `d` says that the exclusive-or lies in its `d` low bytes. -/
theorem classify_le_iff (x : Word) (d : Nat) (hd : d ≤ 4) : classify x ≤ d ↔ x.toNat < 2 ^ (8 * d) := by
  have hx := x.isLt
  have h0 : x = 0 ↔ x.toNat = 0 := ⟨fun h => by rw [h]; rfl, fun h => BitVec.eq_of_toNat_eq h⟩
  unfold classify
  simp only [h0, BitVec.le_def]
  interval_cases d <;> repeat' split
  all_goals simp_all
  all_goals omega

/-- Two words with the same four bytes are equal. -/
theorem word_eq_of_bytes {w e : Word} (h : ∀ j, j < 4 → byteOf w j = byteOf e j) : w = e := by
  apply BitVec.eq_of_getLsbD_eq
  intro k hk
  have hj := congrArg (fun b => b.getLsbD (k % 8)) (h (k / 8) (by omega))
  simp only [byteOf, BitVec.getLsbD_extractLsb', show 8 * (k / 8) + k % 8 = k by omega, show k % 8 < 8 by omega] at hj
  simpa using hj

/-- A bit of a low-byte-first number is a bit of one of its bytes. -/
theorem leWord_getLsbD (p : List Byte) (k : Nat) :
    (leWord p).getLsbD k = (decide (k < 32) && ((p[k / 8]?).getD 0).getLsbD (k % 8)) := by
  induction p generalizing k with
  | nil => simp [leWord]
  | cons b p ih =>
    simp only [leWord, BitVec.getLsbD_or, BitVec.getLsbD_setWidth, BitVec.getLsbD_shiftLeft, ih]
    by_cases h : k < 8
    · simp [h, Nat.div_eq_of_lt h, Nat.mod_eq_of_lt h]
      try omega
    · have e1 : k / 8 = (k - 8) / 8 + 1 := by omega
      have e2 : (k - 8) % 8 = k % 8 := by omega
      by_cases hk : k < 32
      · simp [h, e1, e2, BitVec.getLsbD_of_ge b k (by omega), hk, show k - 8 < 32 by omega]
      · simp [hk]

/-- Byte `j` of a rebuilt word: from the payload below `d`, from the window word above (R159). -/
theorem byteOf_rebuild (e : Word) (d : Nat) (p : List Byte) (hd : d ≤ 4) (hp : p.length = d) (j : Nat) (hj : j < 4) :
    byteOf (rebuild e d p) j = if j < d then (p[j]?).getD 0 else byteOf e j := by
  have hm : ∀ k, k < 32 → (maskLow d).getLsbD k = decide (k < 8 * d) := by
    intro k hk
    interval_cases d <;> interval_cases k <;> rfl
  apply BitVec.eq_of_getLsbD_eq
  intro k hk
  simp only [byteOf, rebuild, BitVec.getLsbD_extractLsb', BitVec.getLsbD_or, BitVec.getLsbD_and, BitVec.getLsbD_not,
    leWord_getLsbD, hm (8 * j + k) (by omega)]
  rw [show (8 * j + k) / 8 = j by omega, show (8 * j + k) % 8 = k by omega]
  split
  · next h => simp [hk, show 8 * j + k < 32 by omega, show 8 * j + k < 8 * d by omega]
  · next h =>
    simp [hk, show 8 * j + k < 32 by omega, show ¬ 8 * j + k < 8 * d by omega,
      List.getElem?_eq_none (show p.length ≤ j by omega)]

/-- What holds of the starting pair and of every slot visited holds of the result of a scan. -/
theorem scanBest_induction {f : Fifo} {w : Word} {P : Nat × Nat → Prop} (slots : List Nat) (best : Nat × Nat)
    (h0 : P best) (hs : ∀ i ∈ slots, ∀ e, f.read i = some e → P (i, classify (w ^^^ e))) :
    P (scanBest f w slots best) := by
  induction slots generalizing best with
  | nil => exact h0
  | cons i l ih =>
    have hl : ∀ j ∈ l, ∀ e, f.read j = some e → P (j, classify (w ^^^ e)) :=
      fun j hj => hs j (List.mem_cons_of_mem _ hj)
    simp only [scanBest]
    cases hr : f.read i with
    | none => exact ih best h0 hl
    | some e =>
      have h1 := hs i List.mem_cons_self e hr
      have h2 : P (if classify (w ^^^ e) < best.2 then (i, classify (w ^^^ e)) else best) := by split <;> assumption
      simp only
      split
      · exact h2
      · exact ih _ h2 hl

/-- The bulk search names a slot below 32 and a difference of at most 4. -/
theorem findBestMatch_age_bound {f : Fifo} (w : Word) (h : 1 ≤ f.cap ∧ f.cap ≤ 32) :
    (findBestMatch f w .age).1 < 32 ∧ (findBestMatch f w .age).2 ≤ 4 := by
  refine scanBest_induction (P := fun p => p.1 < 32 ∧ p.2 ≤ 4) _ _ ⟨by decide, by decide⟩ ?_
  intro i hi e _
  simp only [Fifo.scanSlots, List.mem_map] at hi
  obtain ⟨j, -, rfl⟩ := hi
  exact ⟨lt_of_lt_of_le (Nat.mod_lt _ h.1) h.2, classify_le _⟩

end Sys2Proof.Machine
end

