-- ==== Sys2Proof/Laws/Memory.lean ====
section
/-! SUPPORT. `ENC_OUT`: a byte reads back what was written, every other address is left alone, and every operation keeps the
canonical form. -/

namespace Sys2Proof.Machine

theorem Memory.read_write (m : Memory) (x y : Nat) (v : Byte) :
    (m.write x v).read y = if y = x then some v else m.read y := by
  induction m with
  | nil => simp [Memory.write, Memory.read]
  | cons c m ih =>
    obtain ⟨a, b⟩ := c
    simp only [Memory.write]
    split
    · simp only [Memory.read]
    · split
      · simp only [Memory.read]
        split <;> simp_all
      · simp only [Memory.read, ih]
        split <;> split <;> simp_all

theorem Memory.read_writeBytes (m : Memory) (x y : Nat) (s : List Byte) :
    (m.writeBytes x s).read y = if x ≤ y ∧ y < x + s.length then s[y - x]? else m.read y := by
  induction s generalizing m x with
  | nil =>
    rw [if_neg (by simp)]
    rfl
  | cons b s ih =>
    simp only [Memory.writeBytes, ih, Memory.read_write, List.length_cons]
    rcases Nat.lt_trichotomy y x with h | h | h
    · rw [if_neg (by omega), if_neg (by omega), if_neg (by omega)]
    · subst h; simp
    · have e : y - x = (y - (x + 1)) + 1 := by omega
      simp only [e, List.getElem?_cons_succ, Nat.ne_of_gt h, if_false]
      by_cases hl : y < x + 1 + s.length
      · simp [show x + 1 ≤ y by omega, hl, show x ≤ y by omega, show y < x + (s.length + 1) by omega]
      · simp [hl, show ¬ y < x + (s.length + 1) by omega]

theorem Memory.read_writeBytes_outside (m : Memory) (x y : Nat) (s : List Byte) (h : y < x ∨ x + s.length ≤ y) :
    (m.writeBytes x s).read y = m.read y := by
  rw [Memory.read_writeBytes, if_neg (by omega)]

/-- The first address of a memory in canonical form is below every address a write adds or keeps. -/
theorem Memory.wf_cons {a : Nat} {b : Byte} {m : Memory} :
    Memory.wf ((a, b) :: m) = true ↔ m.wf = true ∧ ∀ c ∈ m, a < c.1 := by
  induction m generalizing a b with
  | nil => simp [Memory.wf]
  | cons c m ih =>
    obtain ⟨a', b'⟩ := c
    simp only [Memory.wf, Bool.and_eq_true, decide_eq_true_eq, List.mem_cons, forall_eq_or_imp]
    constructor
    · rintro ⟨h, hw⟩
      exact ⟨hw, h, fun c hc => Nat.lt_trans h ((ih.1 hw).2 c hc)⟩
    · rintro ⟨hw, h, -⟩
      exact ⟨h, hw⟩

theorem Memory.mem_write {m : Memory} {x : Nat} {v : Byte} {c : Host.Cell} (h : c ∈ m.write x v) :
    c = (x, v) ∨ c ∈ m := by
  induction m with
  | nil => simpa [Memory.write] using h
  | cons d m ih =>
    obtain ⟨a, b⟩ := d
    simp only [Memory.write] at h
    split at h
    · simpa using h
    · split at h
      · rcases List.mem_cons.1 h with h | h
        · exact .inl h
        · exact .inr (List.mem_cons_of_mem _ h)
      · rcases List.mem_cons.1 h with h | h
        · exact .inr (h ▸ List.mem_cons_self)
        · exact (ih h).imp id (List.mem_cons_of_mem _)

theorem Memory.wf_write {m : Memory} (x : Nat) (v : Byte) (h : m.wf = true) : (m.write x v).wf = true := by
  induction m with
  | nil => rfl
  | cons c m ih =>
    obtain ⟨a, b⟩ := c
    have hm := Memory.wf_cons.1 h
    simp only [Memory.write]
    split
    · next hx =>
      refine Memory.wf_cons.2 ⟨h, ?_⟩
      intro c hc
      rcases List.mem_cons.1 hc with rfl | hc
      · exact hx
      · exact Nat.lt_trans hx (hm.2 c hc)
    · split
      · next hx => subst hx; exact Memory.wf_cons.2 hm
      · refine Memory.wf_cons.2 ⟨ih hm.1, ?_⟩
        intro c hc
        rcases Memory.mem_write hc with rfl | hc
        · exact show a < x by omega
        · exact hm.2 c hc

theorem Memory.wf_writeBytes {m : Memory} (x : Nat) (s : List Byte) (h : m.wf = true) :
    (m.writeBytes x s).wf = true := by
  induction s generalizing m x with
  | nil => exact h
  | cons b s ih => exact ih (x + 1) (Memory.wf_write x b h)

theorem Memory.mem_writeBytes {m : Memory} {x : Nat} {s : List Byte} {c : Host.Cell} (h : c ∈ m.writeBytes x s) :
    (x ≤ c.1 ∧ c.1 < x + s.length) ∨ c ∈ m := by
  induction s generalizing m x with
  | nil => exact .inr h
  | cons b s ih =>
    simp only [List.length_cons]
    rcases ih h with h | h
    · exact .inl (by omega)
    · rcases Memory.mem_write h with rfl | h
      · exact .inl (by simp)
      · exact .inr h

/-- A range whose every byte has been written reads as that many bytes, each the byte of its address. -/
theorem Memory.readBytes_some {m : Memory} {x len : Nat}
    (h : ∀ a, x ≤ a → a < x + len → (m.read a).isSome = true) :
    ∃ b, m.readBytes x len = some b ∧ b.length = len ∧ ∀ j, j < len → b[j]? = m.read (x + j) := by
  induction len generalizing x with
  | zero => exact ⟨[], rfl, rfl, fun j hj => absurd hj (Nat.not_lt_zero j)⟩
  | succ len ih =>
    obtain ⟨b0, h0⟩ := Option.isSome_iff_exists.1 (h x (Nat.le_refl x) (by omega))
    obtain ⟨b, hb, hl, hj⟩ := ih (x := x + 1) fun a h1 h2 => h a (by omega) (by omega)
    refine ⟨b0 :: b, by simp [Memory.readBytes, h0, hb], by simp [hl], ?_⟩
    rintro (_ | j) hlt
    · simpa using h0.symm
    · simpa [Nat.add_assoc, Nat.add_comm 1] using hj j (by omega)

/-- What was written at an address reads back from it. -/
theorem Memory.readBytes_writeBytes (m : Memory) (x : Nat) (s : List Byte) :
    (m.writeBytes x s).readBytes x s.length = some s := by
  obtain ⟨b, h1, h2, h3⟩ := Memory.readBytes_some (m := m.writeBytes x s) (x := x) (len := s.length) (by
    intro a h1 h2
    rw [Memory.read_writeBytes, if_pos ⟨h1, h2⟩, List.getElem?_eq_getElem (by omega)]; rfl)
  rw [h1]
  congr 1
  apply List.ext_getElem?
  intro i
  by_cases hi : i < s.length
  · rw [h3 i hi, Memory.read_writeBytes, if_pos (by omega)]; congr 1; omega
  · rw [List.getElem?_eq_none (by omega), List.getElem?_eq_none (by omega)]

end Sys2Proof.Machine
end

