-- ==== Sys2Proof/Laws/PerInstr.lean ====
section
/-! SUPPORT. Statements about every instruction as syntax, one lemma per constructor. `Lead`: the encoding begins with a byte
of the instruction's own row of the opcode table. -/

namespace Sys2Proof.Laws.Lead

open Sys2Proof Sys2Proof.Machine

/-- The first byte of a well-formed instruction's encoding meets its row's match and mask. -/
def Statement (i : Instr) : Prop :=
  i.wf = true → ∃ b rest, encode i = b :: rest ∧ i.row.holds b = true

/-- A key byte of difference `d` lies in the row of pattern `d << 5` under the mask 0xE0. -/
theorem keyPack_lead (d : Fin 8) (i : BitVec 5) : keyPack d i.toNat &&& 0xE0 = keyPack d 0 := by
  revert d i; decide

theorem keyD0 (i : BitVec 5) : Statement (.keyD0 i) := fun _ =>
  ⟨_, _, rfl, beq_iff_eq.2 (keyPack_lead 0 i)⟩

theorem keyD1 (i : BitVec 5) : Statement (.keyD1 i) := fun _ =>
  ⟨_, _, rfl, beq_iff_eq.2 (keyPack_lead 1 i)⟩

theorem keyD2 (i : BitVec 5) : Statement (.keyD2 i) := fun _ =>
  ⟨_, _, rfl, beq_iff_eq.2 (keyPack_lead 2 i)⟩

theorem keyD3 (i : BitVec 5) : Statement (.keyD3 i) := fun _ =>
  ⟨_, _, rfl, beq_iff_eq.2 (keyPack_lead 3 i)⟩

theorem keyD4 (i : BitVec 5) : Statement (.keyD4 i) := fun _ =>
  ⟨_, _, rfl, beq_iff_eq.2 (keyPack_lead 4 i)⟩

theorem rsvdKeyD5 (b : Byte) : Statement (.rsvdKeyD5 b) := fun h =>
  ⟨_, _, rfl, h⟩

theorem resetRec (s : BitVec 5) : Statement (.resetRec s) := fun _ =>
  ⟨_, _, rfl, by rw [resetLead_eq_keyPack]; exact beq_iff_eq.2 (keyPack_lead 6 s)⟩

theorem escInStream (b : Byte) : Statement (.escInStream b) := fun h =>
  ⟨_, _, rfl, h⟩

theorem blkHdr (s : BitVec 5) : Statement (.blkHdr s) := fun _ =>
  ⟨_, _, rfl, by rw [headerLead_eq_keyPack]; exact beq_iff_eq.2 (keyPack_lead 0 s)⟩

theorem blkHdrUnproduced20To3F (h : Byte) : Statement (.blkHdrUnproduced20To3F h) := fun hw =>
  ⟨_, _, rfl, hw⟩

theorem blkHdrUnproduced40To7F (h : Byte) : Statement (.blkHdrUnproduced40To7F h) := fun hw =>
  ⟨_, _, rfl, hw⟩

theorem blkHdrUnproduced80ToBF (h : Byte) : Statement (.blkHdrUnproduced80ToBF h) := fun hw =>
  ⟨_, _, rfl, hw⟩

theorem blkHdrUnproducedC0ToDF (h : Byte) : Statement (.blkHdrUnproducedC0ToDF h) := fun hw =>
  ⟨_, _, rfl, hw⟩

theorem blkEsc (h : Byte) : Statement (.blkEsc h) := fun hw =>
  ⟨_, _, rfl, hw⟩

theorem blkKeyD0 (i : BitVec 5) : Statement (.blkKeyD0 i) := fun _ =>
  ⟨_, _, rfl, beq_iff_eq.2 (keyPack_lead 0 i)⟩

theorem blkKeyD1 (i : BitVec 5) : Statement (.blkKeyD1 i) := fun _ =>
  ⟨_, _, rfl, beq_iff_eq.2 (keyPack_lead 1 i)⟩

theorem blkKeyD2 (i : BitVec 5) : Statement (.blkKeyD2 i) := fun _ =>
  ⟨_, _, rfl, beq_iff_eq.2 (keyPack_lead 2 i)⟩

theorem blkKeyD3 (i : BitVec 5) : Statement (.blkKeyD3 i) := fun _ =>
  ⟨_, _, rfl, beq_iff_eq.2 (keyPack_lead 3 i)⟩

theorem blkKeyD4 (i : BitVec 5) : Statement (.blkKeyD4 i) := fun _ =>
  ⟨_, _, rfl, beq_iff_eq.2 (keyPack_lead 4 i)⟩

theorem blkRsvdKeyD5 (b : Byte) : Statement (.blkRsvdKeyD5 b) := fun h =>
  ⟨_, _, rfl, h⟩

theorem blkRsvdKeyD6D7 (b : Byte) : Statement (.blkRsvdKeyD6D7 b) := fun h =>
  ⟨_, _, rfl, h⟩

theorem encWord (w : Word) : Statement (.encWord w) := fun _ =>
  ⟨_, _, rfl, by simp [Row.holds, Instr.row]⟩

theorem encSetStrength (s : Byte) : Statement (.encSetStrength s) := fun _ =>
  ⟨_, _, rfl, by simp [Row.holds, Instr.row]⟩

theorem encReset : Statement (.encReset) := fun _ =>
  ⟨_, _, rfl, by simp [Row.holds, Instr.row]⟩

theorem encEmptyOutput : Statement (.encEmptyOutput) := fun _ =>
  ⟨_, _, rfl, by simp [Row.holds, Instr.row]⟩

theorem encReadOut (off len : Nat) : Statement (.encReadOut off len) := fun _ =>
  ⟨_, _, rfl, by simp [Row.holds, Instr.row]⟩

theorem encQuery : Statement (.encQuery) := fun _ =>
  ⟨_, _, rfl, by simp [Row.holds, Instr.row]⟩

theorem decAugment (b : List Byte) : Statement (.decAugment b) := fun _ =>
  ⟨_, _, rfl, by simp [Row.holds, Instr.row]⟩

theorem decWord : Statement (.decWord) := fun _ =>
  ⟨_, _, rfl, by simp [Row.holds, Instr.row]⟩

theorem decReset : Statement (.decReset) := fun _ =>
  ⟨_, _, rfl, by simp [Row.holds, Instr.row]⟩

theorem decDiscard : Statement (.decDiscard) := fun _ =>
  ⟨_, _, rfl, by simp [Row.holds, Instr.row]⟩

theorem decQuery : Statement (.decQuery) := fun _ =>
  ⟨_, _, rfl, by simp [Row.holds, Instr.row]⟩

theorem blkCompress (b : List Byte) (s : Byte) : Statement (.blkCompress b s) := fun _ =>
  ⟨_, _, rfl, by simp [Row.holds, Instr.row]⟩

theorem blkDecompress (b : List Byte) : Statement (.blkDecompress b) := fun _ =>
  ⟨_, _, rfl, by simp [Row.holds, Instr.row]⟩

end Sys2Proof.Laws.Lead
end

