-- ==== Sys2Proof/Laws/Window.lean ====
section
/-! SUPPORT. The back-reference FIFO: what an insert does to each field, and that clear and insert keep the FIFO invariants
(spec 10_state.md R34). -/

namespace Sys2Proof.Machine

@[simp] theorem Fifo.insert_cap (f : Fifo) (w : Word) : (f.insert w).cap = f.cap := by
  unfold Fifo.insert; split <;> rfl

theorem Fifo.insert_not_full {f : Fifo} (w : Word) (h : f.count < f.cap) :
    f.insert w = { f with slots := f.slots ++ [w] } := if_pos h

theorem Fifo.insert_full {f : Fifo} (w : Word) (h : ¬ f.count < f.cap) :
    f.insert w = { f with slots := f.slots.set f.oldest w, oldest := (f.oldest + 1) % f.cap } := if_neg h

theorem Fifo.insert_count {f : Fifo} (w : Word) (h : f.count ≤ f.cap) :
    (f.insert w).count = min (f.count + 1) f.cap := by
  by_cases hc : f.count < f.cap
  · rw [Fifo.insert_not_full w hc]
    have : f.slots.length < f.cap := hc
    simp [Fifo.count]
    omega
  · rw [Fifo.insert_full w hc]
    have h1 : f.slots.length ≤ f.cap := h
    have h2 : ¬ f.slots.length < f.cap := hc
    simp [Fifo.count]
    omega

theorem Fifo.read_isSome_iff (f : Fifo) (i : Nat) : (f.read i).isSome = true ↔ i < f.count := by
  simp [Fifo.read, Fifo.count]

theorem Fifo.read_eq_none_iff (f : Fifo) (i : Nat) : f.read i = none ↔ f.count ≤ i := by
  simp [Fifo.read, Fifo.count]

theorem Fifo.wf_empty {c : Nat} (h1 : 1 ≤ c) (h2 : c ≤ 32) : (Fifo.empty c).Wf :=
  ⟨⟨h1, h2⟩, Nat.zero_le _, h1, fun _ => rfl⟩

/-- A window of a 5-bit strength has a legal capacity. -/
theorem Fifo.wf_empty_strength (v : BitVec 5) : (Fifo.empty (v.toNat + 1)).Wf :=
  Fifo.wf_empty (by omega) (by have := v.isLt; omega)

theorem Fifo.wf_insert {f : Fifo} (w : Word) (h : f.Wf) : (f.insert w).Wf := by
  obtain ⟨⟨h1, h2⟩, h3, h4, h5⟩ := h
  have hcount := Fifo.insert_count w h3
  refine ⟨by simpa using ⟨h1, h2⟩, by rw [hcount]; simp, ?_, ?_⟩
  · by_cases hc : f.count < f.cap
    · rw [Fifo.insert_not_full w hc]; exact h4
    · rw [Fifo.insert_full w hc]; exact Nat.mod_lt _ h1
  · rw [hcount, Fifo.insert_cap]
    intro hlt
    have hc : f.count < f.cap := by omega
    rw [Fifo.insert_not_full w hc]
    exact h5 hc

/-- The slot an insert writes holds the new word. -/
theorem Fifo.read_insert_self {f : Fifo} (w : Word) (h : f.Wf) :
    (f.insert w).read (if f.count < f.cap then f.count else f.oldest) = some w := by
  obtain ⟨-, h3, h4, -⟩ := h
  by_cases hc : f.count < f.cap
  · rw [if_pos hc, Fifo.insert_not_full w hc]
    simp [Fifo.read, Fifo.count]
  · rw [if_neg hc, Fifo.insert_full w hc]
    have h3' : f.count = f.slots.length := rfl
    simp [Fifo.read, show f.oldest < f.slots.length by omega]

/-- Every other valid slot keeps its word. -/
theorem Fifo.read_insert_other {f : Fifo} (w : Word) {i : Nat} (hi : i < f.count)
    (hne : ¬ (f.count = f.cap ∧ i = f.oldest)) (hle : f.count ≤ f.cap) : (f.insert w).read i = f.read i := by
  by_cases hc : f.count < f.cap
  · rw [Fifo.insert_not_full w hc]
    have : i < f.slots.length := hi
    simp [Fifo.read, List.getElem?_append_left this]
  · rw [Fifo.insert_full w hc]
    have : f.oldest ≠ i := fun h => hne ⟨by omega, h.symm⟩
    simp [Fifo.read, List.getElem?_set_ne this]

end Sys2Proof.Machine
end

