-- ==== Sys2Proof/Tests/Slice0.lean ====
section
/-! SUPPORT. The model's own tests. Expected results are the spec's vectors (95_test_vectors.md, named by their ids) or its
encoding tables (30_encoding.md R93, R98, R99, R103). Then one witness for each statement that has hypotheses. -/

namespace Sys2Proof.Tests

open Sys2Proof Sys2Proof.Machine

/-! ### States and readers -/

/-- Reset with given arguments. -/
def start (v : BitVec 5) (outCap : Nat) (inCap blkMax : Option Nat) : State :=
  State.resetWith { outCap := outCap, inCap := inCap, blkMax := blkMax, encStrengthInit := v }

/-- The state after an instruction, the state before where it has none. -/
def after (i : Instr) (s : State) : State :=
  match exec i s with
  | .next t => t
  | .fault _ => s
  | .refused _ => s

/-- The reply of an instruction that starts with no reply. -/
def reply (i : Instr) (s : State) : Option Reply := (after i s).port.reply

/-- The state after one step. -/
def stepped (s : State) : State :=
  match step s with
  | .next t => t
  | .fault _ => s
  | .refused _ => s

/-- A state whose encoder is that of V-E5: `ENC_POS` 7 of 8, two words in the window. -/
def busyEnc : State :=
  (start 5 8 none none).withEnc
    { strength := 5
      win := { slots := [0x40490FDB, 0x40490FD0], oldest := 0, cap := 6 }
      out := [(0, 0xC5), (1, 0xDB), (2, 0x0F), (3, 0x49), (4, 0x40), (5, 0x20), (6, 0xD0)]
      pos := 7 }

/-- A decoder with the window of V-D10 and given bytes queued. -/
def oneWord (input : List Byte) : State :=
  (start 5 16 none none).withDec
    { strength := 0, win := { slots := [0x00000001], oldest := 0, cap := 1 }, input := input }

/-- A decoder after reset with given bytes queued. -/
def queued (input : List Byte) : State :=
  (start 5 16 none none).withDec { strength := 0, win := Fifo.empty 1, input := input }

/-- A bulk scratch that holds one word, with given bytes of the block left. -/
def inBlock (input : List Byte) : State :=
  (start 5 16 none none).withBlk
    { win := { slots := [0x00000001], oldest := 0, cap := 1 }, input := input, out := [0x01, 0x00, 0x00, 0x00] }

/-- The full, wrapped window of V-M2. -/
def wrapped : Fifo := { slots := [0x300, 0x200], oldest := 1, cap := 2 }

/-! ### WellFormed: an ill-formed term for each check (masks and matches of opcode_table.json) -/

theorem test_wf_rsvdKeyD5 : (Instr.rsvdKeyD5 0xC0).wf = false ∧ (Instr.rsvdKeyD5 0xBF).wf = true := by decide
theorem test_wf_escInStream : (Instr.escInStream 0xDF).wf = false ∧ (Instr.escInStream 0xE0).wf = true := by decide
theorem test_wf_blkHdr20 :
    (Instr.blkHdrUnproduced20To3F 0x40).wf = false ∧ (Instr.blkHdrUnproduced20To3F 0x3F).wf = true := by decide
theorem test_wf_blkHdr40 :
    (Instr.blkHdrUnproduced40To7F 0x3F).wf = false ∧ (Instr.blkHdrUnproduced40To7F 0x7F).wf = true := by decide
theorem test_wf_blkHdr80 :
    (Instr.blkHdrUnproduced80ToBF 0xC0).wf = false ∧ (Instr.blkHdrUnproduced80ToBF 0xBF).wf = true := by decide
theorem test_wf_blkHdrC0 :
    (Instr.blkHdrUnproducedC0ToDF 0xE0).wf = false ∧ (Instr.blkHdrUnproducedC0ToDF 0xDF).wf = true := by decide
theorem test_wf_blkEsc : (Instr.blkEsc 0x1F).wf = false ∧ (Instr.blkEsc 0xFF).wf = true := by decide
theorem test_wf_blkRsvdKeyD5 : (Instr.blkRsvdKeyD5 0x9F).wf = false ∧ (Instr.blkRsvdKeyD5 0xA0).wf = true := by decide
theorem test_wf_blkRsvdKeyD6D7 :
    (Instr.blkRsvdKeyD6D7 0xBF).wf = false ∧ (Instr.blkRsvdKeyD6D7 0xC0).wf = true := by decide

/-! ### Decoding: words written out from the encodings -/

-- R93: bits 7:5 the difference, bits 4:0 the index
theorem test_decode_keyD0 : decode .stream [0b00011111] = .ok (.keyD0 31) [] := by decide
theorem test_decode_keyD1 : decode .stream [0b00100001, 0x55] = .ok (.keyD1 1) [0x55] := by decide
theorem test_decode_keyD2 : decode .stream [0b01000001] = .ok (.keyD2 1) [] := by decide
theorem test_decode_keyD3 : decode .stream [0b01100000] = .ok (.keyD3 0) [] := by decide
theorem test_decode_keyD4 : decode .stream [0b10011111] = .ok (.keyD4 31) [] := by decide
theorem test_decode_rsvdKeyD5 : decode .stream [0b10110001] = .ok (.rsvdKeyD5 0xB1) [] := by decide
theorem test_decode_resetRec : decode .stream [0b11000101] = .ok (.resetRec 5) [] := by decide
theorem test_decode_escInStream : decode .stream [0b11100101] = .ok (.escInStream 0xE5) [] := by decide
-- R98
theorem test_decode_blkHdr : decode .bulkHeader [0b00011111] = .ok (.blkHdr 31) [] := by decide
theorem test_decode_blkHdr20 : decode .bulkHeader [0b00100101] = .ok (.blkHdrUnproduced20To3F 0x25) [] := by decide
theorem test_decode_blkHdr40 :
    decode .bulkHeader [0b01000000] = .ok (.blkHdrUnproduced40To7F 0x40) []
      ∧ decode .bulkHeader [0b01111111] = .ok (.blkHdrUnproduced40To7F 0x7F) [] := by decide
theorem test_decode_blkHdr80 :
    decode .bulkHeader [0b10000000] = .ok (.blkHdrUnproduced80ToBF 0x80) []
      ∧ decode .bulkHeader [0b10111111] = .ok (.blkHdrUnproduced80ToBF 0xBF) [] := by decide
theorem test_decode_blkHdrC0 : decode .bulkHeader [0b11011111] = .ok (.blkHdrUnproducedC0ToDF 0xDF) [] := by decide
theorem test_decode_blkEsc : decode .bulkHeader [0b11100111] = .ok (.blkEsc 0xE7) [] := by decide
-- R99
theorem test_decode_blkKeyD0 : decode .bulkBody [0b00000001] = .ok (.blkKeyD0 1) [] := by decide
theorem test_decode_blkKeyD1 : decode .bulkBody [0b00111111] = .ok (.blkKeyD1 31) [] := by decide
theorem test_decode_blkKeyD2 : decode .bulkBody [0b01000001] = .ok (.blkKeyD2 1) [] := by decide
theorem test_decode_blkKeyD3 : decode .bulkBody [0b01110000] = .ok (.blkKeyD3 16) [] := by decide
theorem test_decode_blkKeyD4 : decode .bulkBody [0b10000010] = .ok (.blkKeyD4 2) [] := by decide
theorem test_decode_blkRsvdKeyD5 : decode .bulkBody [0b10100001] = .ok (.blkRsvdKeyD5 0xA1) [] := by decide
theorem test_decode_blkRsvdKeyD6D7 :
    decode .bulkBody [0b11000000] = .ok (.blkRsvdKeyD6D7 0xC0) []
      ∧ decode .bulkBody [0b11111111] = .ok (.blkRsvdKeyD6D7 0xFF) [] := by decide
-- R103: the command codes; the layout of the operands is the model's (log 2)
theorem test_decode_encWord :
    decode .command [0x01, 0x00, 0x00, 0x80, 0x3F, 0x12] = .ok (.encWord 0x3F800000) [0x12] := by decide
theorem test_decode_encSetStrength : decode .command [0x02, 40] = .ok (.encSetStrength 40) [] := by decide
theorem test_decode_encReset : decode .command [0x03] = .ok .encReset [] := by decide
theorem test_decode_encEmptyOutput : decode .command [0x04] = .ok .encEmptyOutput [] := by decide
theorem test_decode_encReadOut :
    decode .command [0x05, 0xAC, 0x02, 0x06] = .ok (.encReadOut 300 6) [] := by decide
theorem test_decode_encQuery : decode .command [0x06] = .ok .encQuery [] := by decide
theorem test_decode_decAugment :
    decode .command [0x11, 0x02, 0xC5, 0x00, 0x15] = .ok (.decAugment [0xC5, 0x00]) [0x15] := by decide
theorem test_decode_decWord : decode .command [0x12] = .ok .decWord [] := by decide
theorem test_decode_decReset : decode .command [0x13] = .ok .decReset [] := by decide
theorem test_decode_decDiscard : decode .command [0x14] = .ok .decDiscard [] := by decide
theorem test_decode_decQuery : decode .command [0x15] = .ok .decQuery [] := by decide
theorem test_decode_blkCompress :
    decode .command [0x21, 0x07, 0x02, 0x80, 0x3F] = .ok (.blkCompress [0x80, 0x3F] 7) [] := by decide
theorem test_decode_blkDecompress :
    decode .command [0x22, 0x01, 0xE5] = .ok (.blkDecompress [0xE5]) [] := by decide
-- R104, and operands cut short
theorem test_decode_rejects :
    decode .command [0x07] = .reject (.unlistedCode 0x07) ∧ decode .command [0x01, 0x00] = .reject .truncated
      ∧ decode .command [] = .reject .noBytes ∧ decode .stream [] = .reject .noBytes := by decide

/-! ### Operand forms, the window, the search -/

-- section 2.2, the Classify table
theorem test_classify_boundaries :
    classify 0x00000000 = 0 ∧ classify 0x00000001 = 1 ∧ classify 0x000000FF = 1 ∧ classify 0x00000100 = 2
      ∧ classify 0x0000FFFF = 2 ∧ classify 0x00010000 = 3 ∧ classify 0x00FFFFFF = 3 ∧ classify 0x01000000 = 4
      ∧ classify 0xFFFFFFFF = 4 := by decide
-- V-K2, V-K4, V-K6
theorem test_keyPack : keyPack 4 31 = 0x9F ∧ keyPack 2 1 = 0x41 ∧ keyUnpack 0x9F = (4, 31) := by decide
-- V-K8, V-K10, V-K13
theorem test_rebuild :
    payload 0x11AA3355 3 = [0x55, 0x33, 0xAA] ∧ rebuild 0x11223355 3 [0x55, 0x33, 0xAA] = 0x11AA3355
      ∧ rebuild 0xDEADBEEF 4 [0x78, 0x56, 0x34, 0x12] = 0x12345678 := by decide
-- V-W5, V-W7, V-W8
theorem test_insert_wraps :
    Fifo.insert ⟨[1, 2, 3], 0, 3⟩ 4 = ⟨[4, 2, 3], 1, 3⟩ ∧ Fifo.insert ⟨[4, 5, 3], 2, 3⟩ 6 = ⟨[4, 5, 6], 0, 3⟩
      ∧ Fifo.insert ⟨[1], 0, 1⟩ 2 = ⟨[2], 0, 1⟩ := by decide
-- V-W10, V-W11
theorem test_scan_orders :
    Fifo.scanSlots ⟨[4, 2, 3], 1, 3⟩ .age = [1, 2, 0] ∧ Fifo.scanSlots ⟨[1, 2], 0, 3⟩ .age = [0, 1] := by decide
-- V-M2 to V-M6
theorem test_search_orders :
    findBestMatch wrapped 0x100 .slot = (0, 2) ∧ findBestMatch wrapped 0x100 .age = (1, 2)
      ∧ findBestMatch wrapped 0x12345678 .slot = (0, 4) ∧ findBestMatch wrapped 0x12345678 .age = (0, 4)
      ∧ findBestMatch ⟨[6, 5, 5], 0, 3⟩ 5 .slot = (1, 0) := by decide
-- P6: ENC64 sends the low word first
theorem test_enc64 : enc64 0x0123456789ABCDEF = [.encWord 0x89ABCDEF, .encWord 0x01234567] := by decide
-- R75: a signed value is sign-extended, an unsigned one zero-extended
theorem test_wordOf : wordOfSigned (0x80 : BitVec 8) = 0xFFFFFF80 ∧ wordOfUnsigned (0x80 : BitVec 8) = 0x00000080 := by
  decide
-- the table of R300
theorem test_status_codes : Status.inputFull.code = 11 ∧ Status.malformedBoundary.cls = .fatal := by decide

/-! ### The encoder channel, one step each -/

-- V-E3
theorem test_encWord_reset :
    reply (.encWord 0x12345678) (start 5 5 none none) = some ⟨.ok, .written 5⟩
      ∧ (after (.encWord 0x12345678) (start 5 5 none none)).enc.out
          = [(0, 0xC5), (1, 0x78), (2, 0x56), (3, 0x34), (4, 0x12)] := by decide
-- V-E5, and V-E6 after ENC_EMPTY_OUTPUT: a key of difference 2, slot 0
theorem test_encWord_key :
    reply (.encWord 0x40491000) busyEnc = some ⟨.bufferFull, .nothing⟩
      ∧ (after (.encWord 0x40491000) (after .encEmptyOutput busyEnc)).enc.out.readBytes 0 3
          = some [0x40, 0x00, 0x10] := by decide
-- V-E8, V-E9
theorem test_encSetStrength :
    reply (.encSetStrength 32) busyEnc = some ⟨.invalidStrength, .nothing⟩
      ∧ (after (.encSetStrength 5) busyEnc).enc.win = Fifo.empty 6 := by decide
-- V-E10
theorem test_encReset :
    (after .encReset busyEnc).enc.win = Fifo.empty 6 ∧ (after .encReset busyEnc).enc.pos = 7 := by decide
-- V-E11
theorem test_encEmptyOutput :
    (after .encEmptyOutput busyEnc).enc.pos = 0 ∧ (after .encEmptyOutput busyEnc).enc.win.count = 2 := by decide
-- P4 step 4, and the rules of V-E12 to V-E14 at `ENC_POS` 7
theorem test_encReadOut :
    reply (.encReadOut 0 7) busyEnc = some ⟨.ok, .bytes [0xC5, 0xDB, 0x0F, 0x49, 0x40, 0x20, 0xD0]⟩
      ∧ reply (.encReadOut 7 0) busyEnc = some ⟨.ok, .bytes []⟩
      ∧ reply (.encReadOut 5 3) busyEnc = some ⟨.outOfRange, .nothing⟩
      ∧ reply (.encReadOut 8 0) busyEnc = some ⟨.outOfRange, .nothing⟩ := by decide
-- V-E1
theorem test_encQuery : reply .encQuery (start 5 16 none none) = some ⟨.ok, .encRegs 5 0 0⟩ := by decide

/-! ### The decoder channel, one step each -/

-- V-D15, V-D16, V-D17
theorem test_decAugment :
    reply (.decAugment []) (queued []) = some ⟨.nullOrEmptyBuffer, .nothing⟩
      ∧ reply (.decAugment [0x80, 0x3F]) ((start 5 16 (some 4) none).withDec (queued [0xC5, 0x00, 0x00]).dec)
          = some ⟨.inputFull, .nothing⟩
      ∧ (after (.decAugment [0x80, 0x3F]) ((start 5 16 (some 5) none).withDec (queued [0xC5, 0x00, 0x00]).dec)).dec.input
          = [0xC5, 0x00, 0x00, 0x80, 0x3F] := by decide
-- V-D1, V-D3, V-D11
theorem test_decWord_errors :
    reply .decWord (queued []) = some ⟨.needMoreData, .nothing⟩
      ∧ reply .decWord (queued [0x40]) = some ⟨.invalidBackReference, .nothing⟩
      ∧ reply .decWord (oneWord [0x40, 0x00]) = some ⟨.needMoreData, .nothing⟩ := by decide
-- V-D9: OK 0x04030201, strength 31, cap 32, 5 bytes consumed
theorem test_decWord_reset :
    reply .decWord (oneWord [0xDF, 0x01, 0x02, 0x03, 0x04]) = some ⟨.ok, .word 0x04030201⟩
      ∧ (after .decWord (oneWord [0xDF, 0x01, 0x02, 0x03, 0x04])).dec
          = { strength := 31, win := ⟨[0x04030201], 0, 32⟩, input := [] } := by decide
-- V-D18, V-D19, V-D20
theorem test_decReset :
    (after .decReset (after .decWord (queued [0xC5, 0x00, 0x00, 0x80, 0x3F, 0x00]))).dec
      = { strength := 5, win := Fifo.empty 6, input := [0x00] } := by decide
theorem test_decDiscard :
    (after .decDiscard (oneWord [0xE0, 0x01])).dec = (oneWord []).dec := by decide
theorem test_decQuery : reply .decQuery (start 5 16 none none) = some ⟨.ok, .decRegs 0 0 0⟩ := by decide
-- R223 with d = 0; V-K10 with slot 0; V-D12; V-K13
theorem test_keyD0 : reply (.keyD0 0) (oneWord [0x00]) = some ⟨.ok, .word 0x00000001⟩ := by decide
theorem test_keyD1 : reply (.keyD1 0) (oneWord [0x20, 0x02]) = some ⟨.ok, .word 0x00000002⟩ := by decide
theorem test_keyD2 :
    reply (.keyD2 0) (oneWord [0x40, 0x00, 0x02]) = some ⟨.ok, .word 0x00000200⟩
      ∧ reply (.keyD2 1) (oneWord [0x41, 0x00]) = some ⟨.invalidBackReference, .nothing⟩ := by decide
theorem test_keyD3 :
    (after (.keyD3 0) (oneWord [0x60, 0x55, 0x33, 0xAA, 0x07])).dec
      = { strength := 0, win := ⟨[0x00AA3355], 0, 1⟩, input := [0x07] } := by decide
theorem test_keyD4 :
    reply (.keyD4 0) (oneWord [0x80, 0x78, 0x56, 0x34, 0x12]) = some ⟨.ok, .word 0x12345678⟩ := by decide
-- V-D6, V-D7
theorem test_rsvdKeyD5 :
    reply (.rsvdKeyD5 0xBF) (queued [0xBF]) = some ⟨.reservedKey, .nothing⟩
      ∧ (after .decWord (queued [0xA0, 0x01])).dec = (queued [0xA0, 0x01]).dec := by decide
-- V-D8
theorem test_resetRec : reply (.resetRec 5) (queued [0xC5, 0x00, 0x00]) = some ⟨.needMoreData, .nothing⟩ := by decide
-- V-D4, V-D5
theorem test_escInStream :
    reply (.escInStream 0xE0) (queued [0xE0]) = some ⟨.unsupportedEscapeInStream, .nothing⟩
      ∧ reply .decWord (oneWord [0xFF, 0, 0, 0, 0]) = some ⟨.unsupportedEscapeInStream, .nothing⟩ := by decide

/-! ### The bulk path, one step each -/

-- V-B2 (the wrapped window: AGE order) and V-B5 (escape)
theorem test_blkCompress :
    reply (.blkCompress [0, 1, 0, 0, 0, 2, 0, 0, 0, 3, 0, 0, 0, 1, 0, 0] 1) (queued [])
        = some ⟨.ok, .bytes [0x01, 0x00, 0x01, 0x00, 0x00, 0x40, 0x00, 0x02, 0x40, 0x00, 0x03, 0x41, 0x00, 0x01]⟩
      ∧ reply (.blkCompress [1, 0, 0, 0, 1, 0, 1, 0] 0) (queued [])
        = some ⟨.ok, .bytes [0xE0, 1, 0, 0, 0, 1, 0, 1, 0]⟩ := by decide
-- V-B11 to V-B15
theorem test_blkCompress_checks :
    reply (.blkCompress [] 40) (queued []) = some ⟨.nullOrEmptyBuffer, .nothing⟩
      ∧ reply (.blkCompress [1, 2, 3] 40) (queued []) = some ⟨.invalidLength, .nothing⟩
      ∧ reply (.blkCompress (List.replicate 12 0) 40) (start 5 16 none (some 8)) = some ⟨.outOfRange, .nothing⟩
      ∧ reply (.blkCompress [1, 2, 3, 4] 32) (queued []) = some ⟨.invalidStrength, .nothing⟩
      ∧ reply (.blkCompress (List.replicate 8 0) 31) (start 5 16 none (some 8))
          = some ⟨.ok, .bytes [0x1F, 0, 0, 0, 0, 0]⟩ := by decide
-- P8 step 2, V-B28, V-B26
theorem test_blkDecompress :
    reply (.blkDecompress [0x01, 0x00, 0x01, 0x00, 0x00, 0x40, 0x00, 0x02, 0x40, 0x00, 0x03, 0x41, 0x00, 0x01]) (queued [])
        = some ⟨.ok, .bytes [0, 1, 0, 0, 0, 2, 0, 0, 0, 3, 0, 0, 0, 1, 0, 0]⟩
      ∧ reply (.blkDecompress [0x25, 1, 0, 0, 0, 0x20, 2]) (queued []) = some ⟨.ok, .bytes [1, 0, 0, 0, 2, 0, 0, 0]⟩
      ∧ reply (.blkDecompress [0xE5]) (queued []) = some ⟨.ok, .bytes []⟩ := by decide
-- V-B16, V-B18, V-B20, V-B21, V-B25, V-B29
theorem test_blkDecompress_errors :
    reply (.blkDecompress []) (queued []) = some ⟨.nullOrEmptyBuffer, .nothing⟩
      ∧ reply (.blkDecompress [0, 1, 0, 0]) (queued []) = some ⟨.malformedBoundary, .nothing⟩
      ∧ reply (.blkDecompress [0, 1, 0, 0, 0, 0x21]) (queued []) = some ⟨.invalidBackReference, .nothing⟩
      ∧ reply (.blkDecompress [0, 1, 0, 0, 0, 0x40, 2]) (queued []) = some ⟨.malformedBoundary, .nothing⟩
      ∧ reply (.blkDecompress [0, 1, 0, 0, 0, 0xA1, 0]) (queued []) = some ⟨.reservedKey, .nothing⟩
      ∧ reply (.blkDecompress (List.replicate 10 0)) (start 5 16 none (some 8)) = some ⟨.outOfRange, .nothing⟩ := by
  decide

/-- The scratch after a header row on a block of one word and a key byte. -/
def headerDone (v : Nat) : Scratch := { win := ⟨[0x00000001], 0, v + 1⟩, input := [0x20], out := [1, 0, 0, 0] }

-- R98, R261: the strength is `header & 0x1F`
theorem test_blkHdr :
    (after (.blkHdr 31) (inBlock [0x1F, 1, 0, 0, 0, 0x20])).blk = headerDone 31
      ∧ reply (.blkHdr 0) (inBlock [0x00, 1, 0, 0]) = some ⟨.malformedBoundary, .nothing⟩ := by decide
theorem test_blkHdr20 :
    (after (.blkHdrUnproduced20To3F 0x25) (inBlock [0x25, 1, 0, 0, 0, 0x20])).blk = headerDone 5 := by decide
theorem test_blkHdr40 :
    (after (.blkHdrUnproduced40To7F 0x61) (inBlock [0x61, 1, 0, 0, 0, 0x20])).blk = headerDone 1 := by decide
theorem test_blkHdr80 :
    (after (.blkHdrUnproduced80ToBF 0xBF) (inBlock [0xBF, 1, 0, 0, 0, 0x20])).blk = headerDone 31 := by decide
theorem test_blkHdrC0 :
    (after (.blkHdrUnproducedC0ToDF 0xC2) (inBlock [0xC2, 1, 0, 0, 0, 0x20])).blk = headerDone 2 := by decide
-- V-B27
theorem test_blkEsc : reply (.blkEsc 0xFF) (inBlock [0xFF, 1, 2, 3]) = some ⟨.ok, .bytes [1, 2, 3]⟩ := by decide
-- R259, R159: the rebuilt word is appended to the result low byte first
theorem test_blkKeyD0 : (after (.blkKeyD0 0) (inBlock [0x00])).blk.out = [1, 0, 0, 0, 1, 0, 0, 0] := by decide
theorem test_blkKeyD1 :
    (after (.blkKeyD1 0) (inBlock [0x20, 2])).blk
      = { win := ⟨[0x00000002], 0, 1⟩, input := [], out := [1, 0, 0, 0, 2, 0, 0, 0] } := by decide
theorem test_blkKeyD2 :
    reply (.blkKeyD2 0) (inBlock [0x40, 2]) = some ⟨.malformedBoundary, .nothing⟩
      ∧ (after (.blkKeyD2 0) (inBlock [0x40, 0, 2])).blk.win.slots = [0x00000200] := by decide
theorem test_blkKeyD3 :
    (after (.blkKeyD3 0) (inBlock [0x60, 0x55, 0x33, 0xAA])).blk.win.slots = [0x00AA3355] := by decide
theorem test_blkKeyD4 :
    reply (.blkKeyD4 1) (inBlock [0x81]) = some ⟨.invalidBackReference, .nothing⟩
      ∧ (after (.blkKeyD4 0) (inBlock [0x80, 0x78, 0x56, 0x34, 0x12])).blk.win.slots = [0x12345678] := by decide
-- V-B22 to V-B24
theorem test_blkRsvdKeyD5 :
    reply (.blkRsvdKeyD5 0xA0) (inBlock [0xA0]) = some ⟨.reservedKey, .nothing⟩ := by decide
theorem test_blkRsvdKeyD6D7 :
    reply (.blkRsvdKeyD6D7 0xE0) (inBlock [0xE0]) = some ⟨.reservedKey, .nothing⟩
      ∧ (after (.blkRsvdKeyD6D7 0xC0) (inBlock [0xC0])).blk = Scratch.idle := by decide

/-! ### The first step after reset -/

-- a reset record of strength 5 and word 0, as a table word of 40 bits
theorem test_tableWord :
    decodeTableWord 40 0xC5 = some (.resetRec 5) ∧ decodeTableWord 8 0xE1 = some (.escInStream 0xE1)
      ∧ decodeTableWord 8 0x03 = some .encReset := by decide
theorem test_first_step_record :
    (stepped (State.reset.withFetchWord 40 0xC5)).port = { pending := [], reply := some ⟨.ok, .word 0⟩ }
      ∧ (stepped (State.reset.withFetchWord 40 0xC5)).dec.strength = 5 := by decide
theorem test_first_step_command :
    (stepped (State.reset.withFetchWord 8 0x06)).port.reply = some ⟨.ok, .encRegs 5 0 0⟩ := by decide

/-! ### Witnesses: a state and operands that meet the hypotheses of each statement -/

theorem witness_DecodeOfEncode :
    (Instr.encReadOut 300 2).wf = true ∧ (Instr.escInStream 0xFF).wf = true ∧ (Instr.blkHdrUnproduced20To3F 0x20).wf = true := by
  decide
theorem witness_RecordByteSpellsOneRow : Context.stream ≠ .command ∧ Context.bulkHeader ≠ .command := by decide
theorem witness_RecordByteSpellsOneRow_clause :
    (Instr.blkHdrUnproduced40To7F 0x7F).context = .bulkHeader
      ∧ (Instr.blkHdrUnproduced40To7F 0x7F).row.holds 0x7F = true := by decide
theorem witness_CommandDecodesToItsCode :
    decodeCommand [0x05, 0xAC, 0x02, 0x06, 0xFF] = .ok (.encReadOut 300 6) [0xFF] := by decide
theorem witness_StepRunsDecodedCommand :
    decodeCommand (State.reset.withPending [0x12, 0x03]).port.pending = .ok .decWord [0x03]
      ∧ State.reset.port.pending = [] := by decide
theorem witness_UnlistedCodeRefused :
    (State.reset.withPending [0x00]).port.pending = 0x00 :: []
      ∧ ∀ c ∈ ([0x00, 0x07, 0x10, 0x16, 0x20, 0x23, 0xFF] : List Byte),
          c ∉ ([0x01, 0x02, 0x03, 0x04, 0x05, 0x06, 0x11, 0x12, 0x13, 0x14, 0x15, 0x21, 0x22] : List Byte) := by decide
theorem witness_DecWordRunsLeadRecord :
    (queued []).dec.input = [] ∧ (queued [0xC5, 0x00]).dec.input = 0xC5 :: [0x00] := by decide
theorem witness_DecompressRunsItsRecords :
    (start 5 16 none (some 8)).blk = Scratch.idle
      ∧ within [(0 : Byte), 1, 0, 0, 0, 0, 0, 0, 0].length (start 5 16 none (some 8)).limits.blkMaxEscaped = true := by
  decide
theorem witness_EncWordWritesResetRecord :
    (start 5 5 none none).enc.win.count = 0 ∧ (start 5 5 none none).enc.pos + 5 ≤ (start 5 5 none none).limits.outCap := by
  decide
theorem witness_EncWordWritesKeyRecord :
    busyEnc.enc.win.Wf ∧ busyEnc.enc.win.count ≠ 0 ∧ findBestMatch busyEnc.enc.win 0x40490FD0 .slot = (1, 0)
      ∧ busyEnc.enc.pos + (1 + 0) ≤ busyEnc.limits.outCap := by decide
theorem witness_EncWordCapacityIsExact :
    busyEnc.enc.pos + (busyEnc.enc.record 0x40490FD0).length = busyEnc.limits.outCap
      ∧ busyEnc.limits.outCap < busyEnc.enc.pos + (busyEnc.enc.record 0x40490FD1).length := by decide
theorem witness_ReadOutReturnsTheRecord :
    exec (.encWord 0x40490FD0) busyEnc = .next (after (.encWord 0x40490FD0) busyEnc)
      ∧ (after (.encWord 0x40490FD0) busyEnc).answered .ok (.written 1) := ⟨rfl, rfl⟩
theorem witness_SetStrengthRearmsWindow : (31 : Byte).toNat ≤ 31 ∧ 31 < (32 : Byte).toNat := by decide
theorem witness_StrengthTakesEffectAtNextWord :
    exec (.encSetStrength 31) (start 5 5 none none) = .next (after (.encSetStrength 31) (start 5 5 none none))
      ∧ (after (.encSetStrength 31) (start 5 5 none none)).answered .ok .nothing
      ∧ (start 5 5 none none).enc.pos + 5 ≤ (start 5 5 none none).limits.outCap := ⟨rfl, rfl, by decide⟩
theorem witness_EmptyOutputRewindsCursor : 0 < 0 + 1 ∧ 0 < 1 + 0 := by decide
theorem witness_ReadOutReturnsBytesBelowPos :
    busyEnc.enc.Wf busyEnc.limits.outCap ∧ 3 + 4 ≤ busyEnc.enc.pos ∧ 7 + 0 ≤ busyEnc.enc.pos ∧ busyEnc.enc.pos < 4 + 4 := by
  decide
theorem witness_AugmentAppendsBytes :
    (∃ c, (start 5 16 (some 4) none).limits.inCap = some c
        ∧ c < (start 5 16 (some 4) none).dec.input.length + [(1 : Byte), 2, 3, 4, 5].length)
      ∧ ∀ c, (start 5 16 (some 4) none).limits.inCap = some c →
          (start 5 16 (some 4) none).dec.input.length + [(1 : Byte), 2, 3, 4].length ≤ c :=
  ⟨⟨4, rfl, by decide⟩, fun c h => by cases h; decide⟩
theorem witness_KeyRecordRebuildsWord :
    (oneWord [0x40, 0x00, 0x02]).dec.win.read (0 : BitVec 5).toNat = some 0x00000001
      ∧ 1 + (2 : Fin 5).val ≤ (oneWord [0x40, 0x00, 0x02]).dec.input.length
      ∧ (oneWord [0x40, 0x00, 0x02]).dec.input[0]? = some (keyPack (2 : Fin 5).val (0 : BitVec 5).toNat) := by decide
theorem witness_KeyRecordChecksIndexFirst :
    (oneWord [0x41]).dec.win.count ≤ (1 : BitVec 5).toNat
      ∧ (oneWord [0x40, 0x00]).dec.input[0]? = some (keyPack (2 : Fin 5).val (0 : BitVec 5).toNat)
      ∧ (oneWord [0x41]).dec.input[0]? = some (keyPack (2 : Fin 5).val (1 : BitVec 5).toNat)
      ∧ (0 : BitVec 5).toNat < (oneWord [0x40, 0x00]).dec.win.count
      ∧ (oneWord [0x40, 0x00]).dec.input.length < 1 + (2 : Fin 5).val := by decide
theorem witness_ResetRecordStartsEpoch :
    (oneWord [0xDF, 0x01, 0x02, 0x03, 0x04, 0x00]).dec.input
        = (0xC0 ||| (31 : BitVec 5).setWidth 8) :: (leBytes 0x04030201 4 ++ [0x00])
      ∧ (oneWord [0xC5, 0, 0, 0]).dec.input.length < 5
      ∧ (oneWord [0xC5, 0, 0, 0]).dec.input.head? = some (0xC0 ||| (5 : BitVec 5).setWidth 8) := by decide
theorem witness_EscapeAndReservedConsumeNothing :
    (queued [0xE0, 0x05]).dec.input = 0xE0 :: [0x05] ∧ (0xE0 : Byte) ≤ 0xE0 ∧ (0xE0 : Byte) ≤ 0xFF
      ∧ (0xA0 : Byte) ≤ 0xA0 ∧ (0xA0 : Byte) ≤ 0xBF ∧ (0xBF : Byte) ≤ 0xBF := by decide
theorem witness_FatalStatusRepeats :
    exec .decWord (queued [0xE0, 0x05]) = .next (after .decWord (queued [0xE0, 0x05]))
      ∧ (after .decWord (queued [0xE0, 0x05])).answered .unsupportedEscapeInStream .nothing
      ∧ Status.unsupportedEscapeInStream.cls = .fatal := ⟨rfl, rfl, rfl⟩
theorem witness_OnlyResetRecordIntoEmptyWindow :
    (queued [0x9F]).dec.win.count = 0 ∧ (queued [0x9F]).dec.input = 0x9F :: [] ∧ (0x9F : Byte) ≤ 0x9F := by decide
theorem witness_OnlyResetRecordIntoEmptyWindow_decoded :
    exec .decReset (oneWord []) = .next (after .decReset (oneWord []))
      ∧ exec .decWord (queued [0xC0, 1, 0, 0, 0]) = .next (after .decWord (queued [0xC0, 1, 0, 0, 0]))
      ∧ (after .decWord (queued [0xC0, 1, 0, 0, 0])).answered .ok (.word 1) := ⟨rfl, rfl, by decide⟩
theorem witness_ClassifyIsLeastAgreement : 4 ≤ 4 ∧ classify ((1 : Word) ^^^ 0) ≤ 1 := by decide
theorem witness_StreamingSearchTakesLowestLeast :
    wrapped.count ≠ 0 ∧ findBestMatch wrapped 0x100 .slot = (0, 2) ∧ wrapped.read 1 = some 0x200
      ∧ findBestMatch ⟨[6, 5, 5], 0, 3⟩ 5 .slot = (1, 0) ∧ Fifo.read ⟨[6, 5, 5], 0, 3⟩ 0 = some 6 := by decide
theorem witness_BulkSearchTakesOldestLeast :
    wrapped.Wf ∧ wrapped.count ≠ 0 ∧ findBestMatch wrapped 0x100 .age = (1, 2)
      ∧ findBestMatch wrapped 0x12345678 .age = (0, 4) ∧ findBestMatch wrapped 0x12345678 .slot = (0, 4)
      ∧ wrapped.read ((wrapped.oldest + 0) % wrapped.cap) = some 0x200 := by decide
theorem witness_RebuildOfPayload : classify ((0x11AA3355 : Word) ^^^ 0x11223355) ≤ 3 ∧ 3 ≤ 4 := by decide
theorem witness_InsertAppendsOrOverwritesOldest :
    wrapped.Wf ∧ wrapped.count = wrapped.cap ∧ busyEnc.enc.win.Wf ∧ busyEnc.enc.win.count < busyEnc.enc.win.cap := by decide
theorem witness_WindowHoldsLastWordsInOrder_insert :
    wrapped.Wf ∧ ¬ wrapped.count < wrapped.cap ∧ busyEnc.enc.win.Wf ∧ busyEnc.enc.win.count < busyEnc.enc.win.cap := by decide
theorem witness_WindowHoldsLastWordsInOrder : (1 ≤ 1 ∧ 1 ≤ 32) ∧ 1 ≤ 32 ∧ 32 ≤ 32 := by decide
theorem witness_CompressChecksOperandsInOrder :
    ([1, 2, 3] : List Byte).length % 4 ≠ 0 ∧ ([1, 2, 3, 4] : List Byte) ≠ [] ∧ ([1, 2, 3, 4] : List Byte).length % 4 = 0
      ∧ (∃ m, (start 5 16 none (some 3)).limits.blkMax = some m ∧ m < ([1, 2, 3, 4] : List Byte).length)
      ∧ ∀ m, (start 5 16 none (some 4)).limits.blkMax = some m → ([1, 2, 3, 4] : List Byte).length ≤ m :=
  ⟨by decide, by decide, by decide, ⟨3, rfl, by decide⟩, fun m h => by cases h; decide⟩
theorem witness_CompressEscapesUnlessShorter :
    exec (.blkCompress [1, 0, 0, 0, 2, 0, 0, 0] 0) (queued [])
        = .next (after (.blkCompress [1, 0, 0, 0, 2, 0, 0, 0] 0) (queued []))
      ∧ (after (.blkCompress [1, 0, 0, 0, 2, 0, 0, 0] 0) (queued [])).answered .ok (.bytes [0, 1, 0, 0, 0, 0x20, 2])
      ∧ blockWords [1, 0, 0, 0, 2, 0, 0, 0] = [1, 2] := ⟨rfl, by decide, by decide⟩
-- V-B2: the last word is searched in the wrapped window of V-M2, where `AGE` order takes slot 1 and `SLOT` order slot 0
theorem witness_CompressEscapesUnlessShorter_age :
    exec (.blkCompress [0, 1, 0, 0, 0, 2, 0, 0, 0, 3, 0, 0, 0, 1, 0, 0] 1) (queued [])
        = .next (after (.blkCompress [0, 1, 0, 0, 0, 2, 0, 0, 0, 3, 0, 0, 0, 1, 0, 0] 1) (queued []))
      ∧ (after (.blkCompress [0, 1, 0, 0, 0, 2, 0, 0, 0, 3, 0, 0, 0, 1, 0, 0] 1) (queued [])).answered .ok
          (.bytes [1, 0, 1, 0, 0, 0x40, 0, 2, 0x40, 0, 3, 0x41, 0, 1])
      ∧ ([0x200, 0x300, 0x100] : List Word)[2]? = some 0x100
      ∧ findBestMatch ((Fifo.empty ((1 : Byte).toNat + 1)).insertAll (0x100 :: [0x200, 0x300, 0x100].take 2)) 0x100 .age
          = (1, 2) := ⟨rfl, by decide, by decide, by decide⟩
theorem witness_CompressEscapesUnlessShorter_oneWord :
    exec (.blkCompress [0, 0, 0x80, 0x3F] 7) (queued []) = .next (after (.blkCompress [0, 0, 0x80, 0x3F] 7) (queued []))
      ∧ (after (.blkCompress [0, 0, 0x80, 0x3F] 7) (queued [])).answered .ok (.bytes [0xE7, 0, 0, 0x80, 0x3F]) :=
  ⟨rfl, by decide⟩
theorem witness_CompressedSizeBounds :
    exec (.blkCompress [1, 0, 0, 0, 1, 0, 1, 0] 0) (queued [])
        = .next (after (.blkCompress [1, 0, 0, 0, 1, 0, 1, 0] 0) (queued []))
      ∧ (after (.blkCompress [1, 0, 0, 0, 1, 0, 1, 0] 0) (queued [])).answered .ok
          (.bytes [0xE0, 1, 0, 0, 0, 1, 0, 1, 0]) := ⟨rfl, by decide⟩
theorem witness_DecompressChecksAndEscape :
    (∃ m, (start 5 16 none (some 3)).limits.blkMax = some m ∧ m + 1 < ([0xE0, 1, 2, 3, 4] : List Byte).length)
      ∧ (∀ m, (start 5 16 none (some 4)).limits.blkMax = some m → ([0xE0, 1, 2, 3, 4] : List Byte).length ≤ m + 1)
      ∧ (0xE0 : Byte) ≤ 0xE0 ∧ (0xDF : Byte) < 0xE0 ∧ ([1, 2, 3] : List Byte).length < 4 :=
  ⟨⟨3, rfl, by decide⟩, fun m h => by cases h; decide, by decide, by decide, by decide⟩
theorem witness_HeaderRowSeedsScratch :
    (∃ h : Byte, h.setWidth 5 = (5 : BitVec 5) ∧ Instr.blkHdrUnproduced20To3F 0x25 = .blkHdrUnproduced20To3F h)
      ∧ (inBlock [0x25, 1, 0, 0, 0, 0x20]).blk.input = 0x25 :: (leBytes 1 4 ++ [0x20])
      ∧ (inBlock [0x25, 1, 0, 0]).blk.input.length < 5 := ⟨⟨0x25, by decide, rfl⟩, by decide, by decide⟩
theorem witness_HeaderRowSeedsScratch_blkHdr :
    Instr.blkHdr 31 = .blkHdr 31 ∧ (inBlock [0x1F, 1, 0, 0, 0]).blk.input = 0x1F :: (leBytes 1 4 ++ [])
      ∧ (inBlock []).blk.input.length < 5 := by decide
theorem witness_EscapeRowReturnsRest : (inBlock [0xE5]).blk.input = 0xE5 :: [] := by decide
theorem witness_BodyKeyRebuildsWord :
    (inBlock [0x40, 0, 2]).blk.win.read (0 : BitVec 5).toNat = some 1
      ∧ 1 + (2 : Fin 5).val ≤ (inBlock [0x40, 0, 2]).blk.input.length := by decide
theorem witness_BodyErrorsEndTheBlock :
    (inBlock [0x21]).blk.win.count ≤ (1 : BitVec 5).toNat ∧ (0 : BitVec 5).toNat < (inBlock [0x40, 2]).blk.win.count
      ∧ (inBlock [0x40, 2]).blk.input.length < 1 + (2 : Fin 5).val := by decide
theorem witness_DecompressedSizeBound :
    exec (.blkDecompress [0, 1, 0, 0, 0, 0]) (queued []) = .next (after (.blkDecompress [0, 1, 0, 0, 0, 0]) (queued []))
      ∧ (after (.blkDecompress [0, 1, 0, 0, 0, 0]) (queued [])).answered .ok (.bytes [1, 0, 0, 0, 1, 0, 0, 0]) :=
  ⟨rfl, by decide⟩
theorem witness_DecompressedSizeBound_clauses :
    (0x00 : Byte) < 0xE0 ∧ (0xE0 : Byte) ≤ 0xE5
      ∧ exec (.blkDecompress [0xE5]) (queued []) = .next (after (.blkDecompress [0xE5]) (queued []))
      ∧ (after (.blkDecompress [0xE5]) (queued [])).answered .ok (.bytes []) := ⟨by decide, by decide, rfl, by decide⟩
theorem witness_BlockRoundTrip :
    exec (.blkCompress [0, 0, 0, 0, 0, 0, 0, 0] 0) (queued [])
        = .next (after (.blkCompress [0, 0, 0, 0, 0, 0, 0, 0] 0) (queued []))
      ∧ (after (.blkCompress [0, 0, 0, 0, 0, 0, 0, 0] 0) (queued [])).answered .ok (.bytes [0, 0, 0, 0, 0, 0]) :=
  ⟨rfl, by decide⟩
theorem witness_DecoderMirrorsEncoder :
    (start 5 5 none none).enc.Wf (start 5 5 none none).limits.outCap ∧ (start 5 5 none none).enc.win.count = 0
      ∧ exec (.encWord 1) (start 5 5 none none) = .next (after (.encWord 1) (start 5 5 none none))
      ∧ (after (.encWord 1) (start 5 5 none none)).answered .ok (.written 5) := ⟨by decide, rfl, rfl, by decide⟩
theorem witness_DecoderMirrorsEncoder_same :
    let s := busyEnc.withDec { strength := 5, win := busyEnc.enc.win, input := [] }
    s.enc.Wf s.limits.outCap ∧ (s.dec.win = s.enc.win ∧ s.dec.strength = s.enc.strength)
      ∧ exec (.encWord 0x40490FD0) s = .next (after (.encWord 0x40490FD0) s)
      ∧ (after (.encWord 0x40490FD0) s).answered .ok (.written 1) := ⟨by decide, ⟨rfl, rfl⟩, rfl, by decide⟩
theorem witness_StreamRoundTrip :
    (start 5 10 none none).Wf ∧ (start 5 10 none none).enc.win.count = 0 ∧ ([1, 1] : List Word) ≠ []
      ∧ (start 5 10 none none).enc.pos + 5 * ([1, 1] : List Word).length ≤ (start 5 10 none none).limits.outCap := by
  decide
theorem witness_ResetValues : start 5 16 none none = State.resetWith Config.default := by decide
theorem witness_ResetMeetsInvariant :
    Config.default.Wf ∧ (Config.mk 0 (some 0) (some 1) 31).Wf ∧ ¬ (Config.mk 16 none (some 0) 5).Wf := by decide
theorem witness_StepKeepsInvariant :
    (busyEnc.withPending [0x03]).Wf ∧ step (busyEnc.withPending [0x03]) = .next (stepped (busyEnc.withPending [0x03]))
      ∧ exec .encReset busyEnc = .next (after .encReset busyEnc) ∧ busyEnc.Wf :=
  ⟨by decide, rfl, rfl, by decide⟩
theorem witness_ErrorsChangeNoState :
    (Instr.encSetStrength 32).isBulkRecord = false
      ∧ exec (.encSetStrength 32) busyEnc = .next (after (.encSetStrength 32) busyEnc)
      ∧ (after (.encSetStrength 32) busyEnc).answered .invalidStrength .nothing ∧ Status.invalidStrength ≠ .ok :=
  ⟨by decide, rfl, rfl, by decide⟩
theorem witness_EveryCommandCompletes : busyEnc.Wf := by decide
theorem witness_StatusesReturned :
    exec .decQuery busyEnc = .next (after .decQuery busyEnc)
      ∧ exec (.blkKeyD0 0) (inBlock [0x00]) = .next (after (.blkKeyD0 0) (inBlock [0x00])) := ⟨rfl, rfl⟩
theorem witness_ChannelsKeepApart :
    exec .encReset busyEnc = .next (after .encReset busyEnc) ∧ Instr.encReset.isEnc = true ∧ Instr.decReset.isDec = true
      ∧ (Instr.blkCompress [] 0).isBulkCommand = true ∧ (Instr.blkKeyD0 0).isBulkRecord = true :=
  ⟨rfl, rfl, rfl, rfl, by decide⟩
theorem witness_RepliesDependOnOwnChannel :
    let s' := busyEnc.withDec (oneWord [0x00]).dec
    busyEnc.limits = s'.limits ∧ exec .encQuery busyEnc = .next (after .encQuery busyEnc) ∧ Instr.encQuery.isEnc = true
      ∧ busyEnc.enc = s'.enc := ⟨rfl, rfl, rfl, rfl⟩
theorem witness_RepliesDependOnOwnChannel_dec :
    let s' := (oneWord [0x00]).withEnc busyEnc.enc
    (oneWord [0x00]).limits = s'.limits ∧ exec .decQuery (oneWord [0x00]) = .next (after .decQuery (oneWord [0x00]))
      ∧ Instr.decQuery.isDec = true ∧ (oneWord [0x00]).dec = s'.dec := ⟨rfl, rfl, rfl, rfl⟩
theorem witness_RepliesDependOnOwnChannel_bulk :
    busyEnc.limits = (busyEnc.withDec (oneWord [0x00]).dec).limits
      ∧ exec (.blkDecompress [0xE5]) busyEnc = .next (after (.blkDecompress [0xE5]) busyEnc)
      ∧ (Instr.blkDecompress [0xE5]).isBulkCommand = true := ⟨rfl, rfl, rfl⟩
theorem witness_LimitsAreConstant :
    exec .decReset busyEnc = .next (after .decReset busyEnc)
      ∧ step (busyEnc.withPending [0x13]) = .next (stepped (busyEnc.withPending [0x13])) := ⟨rfl, rfl⟩
theorem witness_StrengthWriters :
    exec (.encSetStrength 0) busyEnc = .next (after (.encSetStrength 0) busyEnc)
      ∧ (after (.encSetStrength 0) busyEnc).enc.strength ≠ busyEnc.enc.strength
      ∧ exec .decWord (oneWord [0xDF, 1, 2, 3, 4]) = .next (after .decWord (oneWord [0xDF, 1, 2, 3, 4]))
      ∧ (after .decWord (oneWord [0xDF, 1, 2, 3, 4])).dec.strength ≠ (oneWord [0xDF, 1, 2, 3, 4]).dec.strength :=
  ⟨rfl, by decide, rfl, by decide⟩
theorem witness_PosWriters :
    exec .encEmptyOutput busyEnc = .next (after .encEmptyOutput busyEnc)
      ∧ (after .encEmptyOutput busyEnc).enc.pos ≠ busyEnc.enc.pos := ⟨rfl, by decide⟩
theorem witness_CapacityChangesOnlyByClear :
    exec (.encSetStrength 0) busyEnc = .next (after (.encSetStrength 0) busyEnc)
      ∧ (after (.encSetStrength 0) busyEnc).enc.win.cap ≠ busyEnc.enc.win.cap
      ∧ exec (.resetRec 31) (oneWord [0xDF, 1, 2, 3, 4]) = .next (after (.resetRec 31) (oneWord [0xDF, 1, 2, 3, 4]))
      ∧ (after (.resetRec 31) (oneWord [0xDF, 1, 2, 3, 4])).dec.win.cap ≠ (oneWord [0xDF, 1, 2, 3, 4]).dec.win.cap :=
  ⟨rfl, by decide, rfl, by decide⟩
theorem witness_CapacityChangesOnlyByClear_decWord :
    exec .decWord (oneWord [0xDF, 1, 2, 3, 4]) = .next (after .decWord (oneWord [0xDF, 1, 2, 3, 4]))
      ∧ (after .decWord (oneWord [0xDF, 1, 2, 3, 4])).dec.win.cap ≠ (oneWord [0xDF, 1, 2, 3, 4]).dec.win.cap
      ∧ (oneWord [0xDF, 1, 2, 3, 4]).dec.input.head? = some (0xC0 ||| (31 : BitVec 5).setWidth 8) :=
  ⟨rfl, by decide, by decide⟩
theorem witness_OnlyEncWordWritesOutput :
    exec .encReset busyEnc = .next (after .encReset busyEnc)
      ∧ exec (.encWord 0x40490FD0) busyEnc = .next (after (.encWord 0x40490FD0) busyEnc)
      ∧ 6 < busyEnc.enc.pos ∧ busyEnc.enc.pos + (busyEnc.enc.record 0x40490FD0).length ≤ 8 := ⟨rfl, rfl, by decide, by decide⟩
theorem witness_IdempotentCommands :
    exec .encReset busyEnc = .next (after .encReset busyEnc)
      ∧ exec (.encReadOut 0 7) busyEnc = .next (after (.encReadOut 0 7) busyEnc)
      ∧ exec .decDiscard (oneWord [0x00]) = .next (after .decDiscard (oneWord [0x00])) := ⟨rfl, rfl, rfl⟩

end Sys2Proof.Tests
end

section
/-! PROOFS. The limits are constant (R39, R342): every outcome the channel lemmas allow writes one part of the state and the
reply, and a step only takes its command from the port first. -/

namespace Sys2Proof.Machine

/-- What a step with a next state did: nothing, as no command was pending, or it ran the command it fetched (R70, R324). -/
theorem step_cases {s t : State} (h : step s = .next t) :
    (fetch s = .idle ∧ t = s) ∨ ∃ i rest, fetch s = .command i rest ∧ exec i (s.withPending rest) = .next t := by
  unfold step at h
  cases hf : fetch s with
  | idle => rw [hf] at h; cases h; exact .inl ⟨rfl, rfl⟩
  | command i rest => rw [hf] at h; exact .inr ⟨i, rest, rfl, h⟩
  | rejected why => rw [hf] at h; cases h

theorem exec_keeps_limits {i : Instr} {s t : State} (h : exec i s = .next t) : t.limits = s.limits := by
  rcases i.isEnc_or_isDec_or_bulk with hi | hi | hi | hi
  · rcases exec_enc_local i s hi with ⟨e, r, he⟩ | ⟨_, _, _, _, _, hfault⟩
    · cases h.symm.trans (he s rfl rfl); rfl
    · cases h.symm.trans hfault
  · obtain ⟨d, r, hd⟩ := exec_dec_local i s hi
    cases h.symm.trans (hd s rfl rfl); rfl
  · obtain ⟨r, hr⟩ := exec_bulk_local i s hi
    cases h.symm.trans (hr s rfl); rfl
  · rcases exec_bulkRecord_cases i s hi with ⟨sc, hsc⟩ | ⟨r, hr⟩
    · cases h.symm.trans hsc; rfl
    · cases h.symm.trans hr; rfl

theorem step_keeps_limits {s t : State} (h : step s = .next t) : t.limits = s.limits := by
  rcases step_cases h with ⟨-, rfl⟩ | ⟨i, rest, -, hexec⟩
  · rfl
  · calc t.limits = (s.withPending rest).limits := exec_keeps_limits hexec
      _ = s.limits := State.withPending_limits s rest

/-- Settles O55: it holds, by the channel of the instruction. -/
theorem limitsAreConstant : Obligations.LimitsAreConstant :=
  ⟨fun _ _ _ => exec_keeps_limits, fun _ _ => step_keeps_limits⟩

end Sys2Proof.Machine
end

section
/-! PROOFS. The command list of R103 is exact: the decoder knows the listed codes and no others, so any other code is refused
at the boundary, whatever bytes follow it (R104). -/

namespace Sys2Proof

/-- The 13 command codes of R103. -/
def commandCodes : List Byte :=
  [0x01, 0x02, 0x03, 0x04, 0x05, 0x06, 0x11, 0x12, 0x13, 0x14, 0x15, 0x21, 0x22]

theorem toNat_mem_commandCodes {c : Byte} : c.toNat ∈ commandCodes.map BitVec.toNat ↔ c ∈ commandCodes :=
  List.mem_map_of_injective BitVec.toNat_injective

/-- A code has no operand layout exactly when R103 does not list it; the bytes after it do not matter. -/
theorem decodeOperands_eq_none_iff (code : Nat) (r : List Byte) :
    decodeOperands code r = none ↔ code ∉ commandCodes.map BitVec.toNat := by
  unfold decodeOperands
  split
  -- The decoder's last branch: the code differs from all 13.
  case h_14 => simp_all [commandCodes]
  all_goals simp [commandCodes]

theorem decodeCommand_of_unlisted {c : Byte} (r : List Byte) (hc : c ∉ commandCodes) :
    decodeCommand (c :: r) = .reject (.unlistedCode c) := by
  have hnone : decodeOperands c.toNat r = none :=
    (decodeOperands_eq_none_iff c.toNat r).2 (mt toNat_mem_commandCodes.1 hc)
  simp only [decodeCommand, hnone]

namespace Machine

theorem fetch_of_unlistedCode {s : State} {c : Byte} (h : decodeCommand s.port.pending = .reject (.unlistedCode c)) :
    fetch s = .rejected (.unlistedCommandCode c) := by
  simp only [fetch, h]

theorem step_of_rejected {s : State} {why : Refusal} (h : fetch s = .rejected why) : step s = .refused why := by
  simp only [step, h]

/-- Settles O6: it holds, as the decoder has no operand layout for a code that R103 does not list. -/
theorem unlistedCodeRefused : Obligations.UnlistedCodeRefused := by
  intro s c r hpending hc
  have hdecode : decodeCommand s.port.pending = .reject (.unlistedCode c) := by
    rw [hpending]
    exact decodeCommand_of_unlisted r hc
  exact step_of_rejected (fetch_of_unlistedCode hdecode)

end Machine
end Sys2Proof
end

section
/-! PROOFS. `WinInsert` (R131): below capacity it appends at slot `count`; at capacity it overwrites slot `oldest` and moves
`oldest` on. For either side of the capacity, one lemma each for the count, the oldest slot and what every slot reads. -/

namespace Sys2Proof.Machine

theorem Fifo.count_insert_not_full {f : Fifo} (w : Word) (h : f.count < f.cap) : (f.insert w).count = f.count + 1 := by
  rw [Fifo.insert_count w h.le]
  exact min_eq_left h

theorem Fifo.count_insert_full {f : Fifo} (w : Word) (h : f.count = f.cap) : (f.insert w).count = f.count := by
  rw [Fifo.insert_count w h.le, h]
  exact min_eq_right (Nat.le_succ _)

theorem Fifo.oldest_insert_not_full {f : Fifo} (w : Word) (hwf : f.Wf) (h : f.count < f.cap) :
    (f.insert w).oldest = 0 := by
  obtain ⟨-, -, -, holdest⟩ := hwf
  rw [Fifo.insert_not_full w h]
  exact holdest h

theorem Fifo.oldest_insert_full {f : Fifo} (w : Word) (h : f.count = f.cap) :
    (f.insert w).oldest = (f.oldest + 1) % f.cap := by
  rw [Fifo.insert_full w h.not_lt]

theorem Fifo.read_insert_not_full {f : Fifo} (w : Word) (hwf : f.Wf) (h : f.count < f.cap) (i : Nat) :
    (f.insert w).read i = if i = f.count then some w else f.read i := by
  rcases lt_trichotomy i f.count with hlt | rfl | hgt
  · rw [if_neg hlt.ne]
    exact Fifo.read_insert_other w hlt (fun hfull => h.ne hfull.1) h.le
  · simpa [h] using Fifo.read_insert_self w hwf
  · have hnew : (f.insert w).read i = none := by
      rw [Fifo.read_eq_none_iff, Fifo.count_insert_not_full w h]
      exact hgt
    rw [if_neg hgt.ne', hnew, (Fifo.read_eq_none_iff f i).2 hgt.le]

/-- R34 keeps `oldest` on a valid slot of a full FIFO, so the overwritten slot can be read. -/
theorem Fifo.read_insert_full {f : Fifo} (w : Word) (hwf : f.Wf) (h : f.count = f.cap) (i : Nat) :
    (f.insert w).read i = if i = f.oldest then some w else f.read i := by
  split
  case isTrue hi =>
    have hself := Fifo.read_insert_self w hwf
    rwa [if_neg h.not_lt, ← hi] at hself
  case isFalse hi =>
    rw [Fifo.insert_full w h.not_lt]
    exact List.getElem?_set_ne (Ne.symm hi)

/-- Settles O33: it holds, by what an insert does to each field on either side of the capacity. -/
theorem insertAppendsOrOverwritesOldest : Obligations.InsertAppendsOrOverwritesOldest := by
  intro f w hwf
  refine ⟨Fifo.insert_cap f w, fun hlt => ?below, fun hfull => ?full⟩
  case below =>
    exact ⟨Fifo.count_insert_not_full w hlt, Fifo.oldest_insert_not_full w hwf hlt,
      Fifo.read_insert_not_full w hwf hlt⟩
  case full =>
    exact ⟨Fifo.count_insert_full w hfull, Fifo.oldest_insert_full w hfull, Fifo.read_insert_full w hwf hfull⟩

end Sys2Proof.Machine
end

section
/-! PROOFS. The difference of two words as agreement of their high bytes (R151), and the round trip of one word (R160): a word
rebuilt from a window word and a payload takes its low bytes from the payload, and its high bytes agree. -/

namespace Sys2Proof.Machine

theorem maskLow_getLsbD {d k : Nat} (hd : d ≤ 4) (hk : k < 32) : (maskLow d).getLsbD k = decide (k < 8 * d) := by
  have h : ∀ (d : Fin 5) (k : Fin 32), (maskLow d).getLsbD k = decide (k.val < 8 * d.val) := by decide
  exact h ⟨d, by omega⟩ ⟨k, hk⟩

theorem payload_getElem? {w : Word} {d j : Nat} (hj : j < d) : (payload w d)[j]? = some (byteOf w j) := by
  simp [payload, leBytes, hj]

/-- A difference of at most `d` says that no bit from the `d` low bytes on is set. -/
theorem classify_le_iff_high_bits (x : Word) {d : Nat} (hd : d ≤ 4) :
    classify x ≤ d ↔ ∀ k, 8 * d ≤ k → x.getLsbD k = false := by
  rw [classify_le_iff x d hd]
  constructor
  · intro h k hk
    exact Nat.testBit_lt_two_pow (h.trans_le (Nat.pow_le_pow_right (by decide) hk))
  · exact Nat.lt_pow_two_of_testBit x.toNat

theorem byteOf_eq_iff_xor_bits (w e : Word) (j : Nat) :
    byteOf w j = byteOf e j ↔ ∀ k, k < 8 → (w ^^^ e).getLsbD (8 * j + k) = false := by
  simp only [byteOf, BitVec.eq_of_getLsbD_eq_iff, BitVec.getLsbD_extractLsb', BitVec.getLsbD_xor, bne_eq_false_iff_eq]
  exact forall₂_congr fun k hk => by simp [hk]

/-- A difference of at most `d` says that the words agree in bytes `d` to 3 (R151). -/
theorem classify_xor_le_iff (w e : Word) {d : Nat} (hd : d ≤ 4) :
    classify (w ^^^ e) ≤ d ↔ ∀ j, d ≤ j → j < 4 → byteOf w j = byteOf e j := by
  simp only [classify_le_iff_high_bits _ hd, byteOf_eq_iff_xor_bits]
  constructor
  · intro h j hj _ k _
    exact h (8 * j + k) (by omega)
  · intro h k hk
    by_cases hlt : k < 32
    · have hbit := h (k / 8) (by omega) (by omega) (k % 8) (by omega)
      rwa [Nat.div_add_mod] at hbit
    · exact BitVec.getLsbD_of_ge _ k (by omega)

theorem and_not_maskLow_of_classify_le {x : Word} {d : Nat} (hd : d ≤ 4) (h : classify x ≤ d) :
    x &&& ~~~ maskLow d = 0 := by
  apply BitVec.eq_of_getLsbD_eq
  intro k hk
  by_cases hlow : k < 8 * d
  · simp [maskLow_getLsbD hd hk, hlow]
  · simp [(classify_le_iff_high_bits x hd).1 h k (by omega)]

/-- Settles O28: it holds, as a difference of at most `d` leaves only the `d` low bytes of the exclusive-or. -/
theorem classifyIsLeastAgreement : Obligations.ClassifyIsLeastAgreement := by
  refine ⟨⟨rfl, rfl, rfl, rfl, rfl⟩, fun w e => ⟨classify_le _, ?masked, fun d hd => classify_xor_le_iff w e hd⟩⟩
  case masked => exact and_not_maskLow_of_classify_le (classify_le _) le_rfl

/-- Settles O32: it holds, byte by byte. -/
theorem rebuildOfPayload : Obligations.RebuildOfPayload := by
  intro w e d hclass hd
  apply word_eq_of_bytes
  intro j hj
  rw [byteOf_rebuild e d (payload w d) hd (payload_length w d) j hj]
  split
  case isTrue hlow => rw [payload_getElem? hlow, Option.getD_some]
  case isFalse hhigh => exact ((classify_xor_le_iff w e hd).1 hclass j (by omega) hj).symm

end Sys2Proof.Machine
end

section
/-! PROOFS. The search without its early stop, and that the stop changes no result (R155): a slot replaces the best only with a
smaller difference, and none is smaller than 0. -/

namespace Sys2Proof.Machine

/-- Slot `j`, if valid, differs from `w` by at least `n`. -/
def Fifo.DiffAtLeast (f : Fifo) (w : Word) (n j : Nat) : Prop :=
  ∀ e, f.read j = some e → n ≤ classify (w ^^^ e)

theorem Fifo.DiffAtLeast.mono {f : Fifo} {w : Word} {m n j : Nat} (h : f.DiffAtLeast w n j) (hmn : m ≤ n) :
    f.DiffAtLeast w m j :=
  fun e he => hmn.trans (h e he)

theorem Fifo.diffAtLeast_of_read {f : Fifo} {w e : Word} {n j : Nat} (he : f.read j = some e)
    (h : n ≤ classify (w ^^^ e)) : f.DiffAtLeast w n j :=
  fun e' he' => by rwa [← Option.some.inj (he.symm.trans he')]

theorem Fifo.not_diffAtLeast_iff {f : Fifo} {w : Word} {n j : Nat} :
    ¬ f.DiffAtLeast w n j ↔ ∃ e, f.read j = some e ∧ classify (w ^^^ e) < n := by
  simp [Fifo.DiffAtLeast]

theorem scanAll_cons_of_read {f : Fifo} {i : Nat} {e : Word} (w : Word) (rest : List Nat) (best : Nat × Nat)
    (he : f.read i = some e) :
    scanAll f w (i :: rest) best
      = scanAll f w rest (if classify (w ^^^ e) < best.2 then (i, classify (w ^^^ e)) else best) := by
  simp [scanAll, he]

theorem scanAll_cons_of_lt {f : Fifo} {w : Word} {i : Nat} {e : Word} {best : Nat × Nat} (rest : List Nat)
    (he : f.read i = some e) (hlt : classify (w ^^^ e) < best.2) :
    scanAll f w (i :: rest) best = scanAll f w rest (i, classify (w ^^^ e)) := by
  rw [scanAll_cons_of_read w rest best he, if_pos hlt]

theorem scanAll_cons_of_diffAtLeast {f : Fifo} {w : Word} {i : Nat} {best : Nat × Nat} (rest : List Nat)
    (h : f.DiffAtLeast w best.2 i) : scanAll f w (i :: rest) best = scanAll f w rest best := by
  cases he : f.read i with
  | none => simp [scanAll, he]
  | some e => rw [scanAll_cons_of_read w rest best he, if_neg (h e he).not_gt]

theorem scanAll_of_diffAtLeast {f : Fifo} {w : Word} {slots : List Nat} {best : Nat × Nat}
    (h : ∀ j ∈ slots, f.DiffAtLeast w best.2 j) : scanAll f w slots best = best := by
  induction slots with
  | nil => rfl
  | cons i rest ih =>
    obtain ⟨hi, hrest⟩ := List.forall_mem_cons.1 h
    rw [scanAll_cons_of_diffAtLeast rest hi, ih hrest]

/-- Once the best difference is 0, no slot visited later replaces it. -/
theorem scanAll_of_zero (f : Fifo) (w : Word) (slots : List Nat) {best : Nat × Nat} (h : best.2 = 0) :
    scanAll f w slots best = best :=
  scanAll_of_diffAtLeast fun _ _ _ _ => h ▸ Nat.zero_le _

theorem scanBest_eq_scanAll (f : Fifo) (w : Word) (slots : List Nat) (best : Nat × Nat) :
    scanBest f w slots best = scanAll f w slots best := by
  induction slots generalizing best with
  | nil => rfl
  | cons i rest ih =>
    cases he : f.read i with
    | none => simp only [scanBest, scanAll, List.foldl_cons, he]; exact ih best
    | some e =>
      rw [scanAll_cons_of_read w rest best he]
      simp only [scanBest, he]
      split
      case isTrue hstop =>
        rw [scanAll_of_zero]
        split
        case isTrue => exact hstop
        case isFalse hbest => omega
      case isFalse => exact ih _

/-- Settles O31: it holds, as the scan and the early stop agree from every best so far. -/
theorem earlyStopChangesNothing : Obligations.EarlyStopChangesNothing :=
  fun f w o => scanBest_eq_scanAll f w (f.scanSlots o) (0, o.sentinel)

end Sys2Proof.Machine
end

section
/-! PROOFS. What the two searches return (R153, R154). In either order a search gives the first slot of its order with the least
difference, or its starting pair when no slot beats the sentinel; each obligation reads this in its own order. -/

namespace Sys2Proof.Machine

/-- `best` is the first of `slots` with the least difference from `w`, and that difference. -/
def Fifo.FirstLeast (f : Fifo) (w : Word) (slots : List Nat) (best : Nat × Nat) : Prop :=
  ∃ k e, slots[k]? = some best.1 ∧ f.read best.1 = some e ∧ classify (w ^^^ e) = best.2
    ∧ (∀ k' j : Nat, k' < k → slots[k']? = some j → f.DiffAtLeast w (best.2 + 1) j)
    ∧ ∀ j ∈ slots, f.DiffAtLeast w best.2 j

theorem Fifo.firstLeast_head {f : Fifo} {w : Word} {i : Nat} {e : Word} {rest : List Nat} (he : f.read i = some e)
    (h : ∀ j ∈ rest, f.DiffAtLeast w (classify (w ^^^ e)) j) :
    f.FirstLeast w (i :: rest) (i, classify (w ^^^ e)) :=
  ⟨0, e, rfl, he, rfl, fun _ _ hk => absurd hk (Nat.not_lt_zero _),
    List.forall_mem_cons.2 ⟨Fifo.diffAtLeast_of_read he le_rfl, h⟩⟩

theorem Fifo.FirstLeast.cons {f : Fifo} {w : Word} {i : Nat} {rest : List Nat} {best : Nat × Nat}
    (h : f.FirstLeast w rest best) (hi : f.DiffAtLeast w (best.2 + 1) i) : f.FirstLeast w (i :: rest) best := by
  obtain ⟨k, e, hk, he, hd, hbefore, hall⟩ := h
  refine ⟨k + 1, e, hk, he, hd, fun k' j hk' hj => ?_, List.forall_mem_cons.2 ⟨hi.mono (Nat.le_succ _), hall⟩⟩
  cases k' with
  | zero =>
    obtain rfl : i = j := by simpa using hj
    exact hi
  | succ k' => exact hbefore k' j (by omega) hj

/-- A scan keeps its starting pair when no slot beats it, and otherwise gives the first slot with the least difference. -/
theorem scanAll_cases (f : Fifo) (w : Word) (slots : List Nat) (best : Nat × Nat) :
    (scanAll f w slots best = best ∧ ∀ j ∈ slots, f.DiffAtLeast w best.2 j)
      ∨ (f.FirstLeast w slots (scanAll f w slots best) ∧ (scanAll f w slots best).2 < best.2) := by
  induction slots generalizing best with
  | nil => exact .inl ⟨rfl, by simp⟩
  | cons i rest ih =>
    by_cases hi : f.DiffAtLeast w best.2 i
    · rw [scanAll_cons_of_diffAtLeast rest hi]
      obtain ⟨heq, hrest⟩ | ⟨hfirst, hlt⟩ := ih best
      · exact .inl ⟨heq, List.forall_mem_cons.2 ⟨hi, hrest⟩⟩
      · exact .inr ⟨hfirst.cons (hi.mono hlt), hlt⟩
    · obtain ⟨e, he, hcloser⟩ := Fifo.not_diffAtLeast_iff.1 hi
      rw [scanAll_cons_of_lt rest he hcloser]
      right
      obtain ⟨heq, hrest⟩ | ⟨hfirst, hlt⟩ := ih (i, classify (w ^^^ e))
      · rw [heq]
        exact ⟨Fifo.firstLeast_head he hrest, hcloser⟩
      · exact ⟨hfirst.cons (Fifo.diffAtLeast_of_read he hlt), hlt.trans hcloser⟩

theorem findBestMatch_cases (f : Fifo) (w : Word) (o : ScanOrder) :
    (findBestMatch f w o = (0, o.sentinel) ∧ ∀ j ∈ f.scanSlots o, f.DiffAtLeast w o.sentinel j)
      ∨ (f.FirstLeast w (f.scanSlots o) (findBestMatch f w o) ∧ (findBestMatch f w o).2 < o.sentinel) := by
  rw [earlyStopChangesNothing f w o]
  exact scanAll_cases f w (f.scanSlots o) (0, o.sentinel)

theorem Fifo.lt_count_of_read {f : Fifo} {j : Nat} {e : Word} (he : f.read j = some e) : j < f.count :=
  (Fifo.read_isSome_iff f j).1 (by rw [he]; rfl)

theorem Fifo.exists_read_zero {f : Fifo} (h : f.count ≠ 0) : ∃ e, f.read 0 = some e :=
  Option.isSome_iff_exists.1 ((Fifo.read_isSome_iff f 0).2 (Nat.pos_of_ne_zero h))

/-- The streaming search never keeps its sentinel: no difference reaches 5 (R153). -/
theorem findBestMatch_slot_firstLeast {f : Fifo} (w : Word) (h : f.count ≠ 0) :
    f.FirstLeast w (List.range f.count) (findBestMatch f w .slot) := by
  obtain ⟨-, hall⟩ | ⟨hfirst, -⟩ := findBestMatch_cases f w .slot
  · obtain ⟨e, he⟩ := Fifo.exists_read_zero h
    have hfive : 5 ≤ classify (w ^^^ e) := hall 0 (List.mem_range.2 (Nat.pos_of_ne_zero h)) e he
    exact absurd (classify_le (w ^^^ e)) (by omega)
  · exact hfirst

/-- Settles O29: it holds, as in `SLOT` order a slot stands at the place of its number. -/
theorem streamingSearchTakesLowestLeast : Obligations.StreamingSearchTakesLowestLeast := by
  intro f w i d hcount hfind
  have hfirst := findBestMatch_slot_firstLeast w hcount
  rw [hfind] at hfirst
  obtain ⟨k, e, hk, he, hd, hbefore, hall⟩ := hfirst
  obtain ⟨-, rfl⟩ : k < f.count ∧ k = i := by simpa [List.getElem?_eq_some_iff] using hk
  refine ⟨⟨e, he, hd⟩, fun j e' he' => ?_⟩
  have hj := Fifo.lt_count_of_read he'
  exact ⟨hall j (List.mem_range.2 hj) e' he', fun hlt => hbefore j j hlt (List.getElem?_range hj) e' he'⟩

/-- `AGE` order visits every valid slot of a legal FIFO (R134). -/
theorem Fifo.mem_scanSlots_age {f : Fifo} (hwf : f.Wf) {j : Nat} (hj : j < f.count) : j ∈ f.scanSlots .age := by
  obtain ⟨-, hle, holdest, hzero⟩ := hwf
  simp only [Fifo.scanSlots, List.mem_map, List.mem_range]
  by_cases hroom : f.count < f.cap
  · exact ⟨j, hj, by rw [hzero hroom, Nat.zero_add, Nat.mod_eq_of_lt (hj.trans hroom)]⟩
  · by_cases hlate : f.oldest ≤ j
    · exact ⟨j - f.oldest, by omega, by rw [Nat.add_sub_of_le hlate, Nat.mod_eq_of_lt (by omega)]⟩
    · refine ⟨j + f.cap - f.oldest, by omega, ?_⟩
      rw [show f.oldest + (j + f.cap - f.oldest) = j + f.cap by omega, Nat.add_mod_right, Nat.mod_eq_of_lt (by omega)]

theorem Fifo.getElem?_scanSlots_age {f : Fifo} {k i : Nat} :
    (f.scanSlots .age)[k]? = some i ↔ k < f.count ∧ (f.oldest + k) % f.cap = i := by
  simp [Fifo.scanSlots, List.getElem?_eq_some_iff]

/-- A difference-4 key of the streaming search carries index 0 (R154). -/
theorem findBestMatch_slot_index_of_four {f : Fifo} {w : Word} {i : Nat} (hcount : f.count ≠ 0)
    (hfind : findBestMatch f w .slot = (i, 4)) : i = 0 := by
  obtain ⟨e, he⟩ := Fifo.exists_read_zero hcount
  obtain ⟨-, hleast⟩ := streamingSearchTakesLowestLeast f w i 4 hcount hfind
  by_contra hne
  exact absurd (classify_le (w ^^^ e)) ((hleast 0 e he).2 (Nat.pos_of_ne_zero hne)).not_ge

/-- Settles O30: it holds, as `AGE` order visits every valid slot and keeps `(0, 4)` when none has a difference below 4. -/
theorem bulkSearchTakesOldestLeast : Obligations.BulkSearchTakesOldestLeast := by
  intro f w i d hwf hcount hfind
  have hcases := findBestMatch_cases f w .age
  rw [hfind] at hcases
  have hvisited {j : Nat} {e : Word} (he : f.read j = some e) : j ∈ f.scanSlots .age :=
    Fifo.mem_scanSlots_age hwf (Fifo.lt_count_of_read he)
  have hfour (i' : Nat) : findBestMatch f w .slot = (i', 4) → i' = 0 := findBestMatch_slot_index_of_four hcount
  obtain ⟨heq, hall⟩ | ⟨⟨k, e, hk, he, hd, hbefore, hall⟩, hlt⟩ := hcases
  · obtain ⟨rfl, rfl⟩ : i = 0 ∧ d = 4 := Prod.mk.inj heq
    exact ⟨fun j e he => hall j (hvisited he) e he, fun h => absurd h (lt_irrefl _), fun _ => rfl, hfour⟩
  · obtain ⟨hkcount, hki⟩ := Fifo.getElem?_scanSlots_age.1 hk
    refine ⟨fun j e he => hall j (hvisited he) e he, fun _ => ⟨k, e, hkcount, hki.symm, he, hd, ?_⟩,
      fun h => absurd hlt h.not_gt, hfour⟩
    intro k' e' hk'
    exact hbefore k' _ hk' (Fifo.getElem?_scanSlots_age.2 ⟨hk'.trans hkcount, rfl⟩) e'

end Sys2Proof.Machine
end

section
/-! PROOFS. ENC_WORD (R180 to R184). A record that fits is written in one way, whichever path built it, so its effect and frame
are stated once; the two paths then only say which record it is. -/

namespace Sys2Proof.Machine

theorem State.sameButReply_withReply (s : State) (r : Reply) : (s.withReply r).sameButReply s :=
  ⟨rfl, rfl, rfl, rfl, rfl⟩

/-- `t` is `s` after ENC_WORD took `w` and appended the record `r` of `n` bytes: the whole effect and its frame. -/
structure State.RecordWritten (s : State) (w : Word) (r : List Byte) (n : Nat) (t : State) : Prop where
  answered : t.answered .ok (.written n)
  readBack : t.enc.out.readBytes s.enc.pos n = some r
  pos : t.enc.pos = s.enc.pos + n
  strength : t.enc.strength = s.enc.strength
  win : t.enc.win = s.enc.win.insert w
  frame : ∀ a, (a < s.enc.pos ∨ s.enc.pos + n ≤ a) → t.enc.out.read a = s.enc.out.read a
  outside : t.sameOutsideEnc s

theorem exec_encWord_of_le {w : Word} {s : State} {r : List Byte} {n : Nat} (hrecord : s.enc.record w = r)
    (hlength : r.length = n) (hroom : s.enc.pos + n ≤ s.limits.outCap) :
    ∃ t, exec (.encWord w) s = .next t ∧ s.RecordWritten w r n t := by
  subst hrecord hlength
  obtain ⟨hfull, -⟩ | ⟨-, hexec⟩ := execEncWord_cases w s
  · exact absurd hroom hfull.not_ge
  · exact ⟨_, hexec, {
      answered := rfl
      readBack := Memory.readBytes_writeBytes s.enc.out s.enc.pos (s.enc.record w)
      pos := rfl
      strength := rfl
      win := rfl
      frame := fun a ha => Memory.read_writeBytes_outside s.enc.out s.enc.pos a (s.enc.record w) ha
      outside := ⟨rfl, rfl, rfl, rfl⟩ }⟩

theorem exec_encWord_of_gt {w : Word} {s : State} (h : s.limits.outCap < s.enc.pos + (s.enc.record w).length) :
    exec (.encWord w) s = .next (s.withReply ⟨.bufferFull, .nothing⟩) := by
  obtain ⟨-, hexec⟩ | ⟨hfits, -⟩ := execEncWord_cases w s
  · exact hexec
  · exact absurd hfits h.not_ge

/-- Settles O11: it holds, by the two sides of the capacity check. -/
theorem encWordCapacityIsExact : Obligations.EncWordCapacityIsExact := by
  intro w s
  by_cases h : s.enc.pos + (s.enc.record w).length ≤ s.limits.outCap
  · obtain ⟨t, hexec, ht⟩ := exec_encWord_of_le rfl rfl h
    exact ⟨t, hexec, fun _ => ⟨ht.answered, ht.pos, ht.readBack, ht.win⟩, fun hgt => absurd h hgt.not_ge⟩
  · exact ⟨_, exec_encWord_of_gt (not_le.1 h), fun hle => absurd hle h, fun _ => ⟨rfl, s.sameButReply_withReply _⟩⟩

theorem Encoder.record_of_empty {e : Encoder} (w : Word) (h : e.win.count = 0) :
    e.record w = resetRecord e.strength w := by
  rw [Encoder.record, if_pos h]

theorem Encoder.record_of_findBestMatch {e : Encoder} {w : Word} {i d : Nat} (h : e.win.count ≠ 0)
    (hfind : findBestMatch e.win w .slot = (i, d)) : e.record w = keyRecord i d w := by
  rw [Encoder.record, if_neg h, hfind]

/-- Settles O9: it holds, as the record of an empty window is the 5 bytes of a reset record. -/
theorem encWordWritesResetRecord : Obligations.EncWordWritesResetRecord := by
  intro w s hempty hroom
  obtain ⟨t, hexec, ht⟩ :=
    exec_encWord_of_le (Encoder.record_of_empty w hempty) (resetRecord_length s.enc.strength w) hroom
  exact ⟨t, hexec, ht.answered, ht.readBack, ht.pos, ht.strength, ht.win, ht.frame, ht.outside⟩

/-- The key byte of a difference 0 to 4 lies in the key rows of R93. -/
theorem keyPack_le {d i : Nat} (hd : d ≤ 4) (hi : i < 32) : keyPack d i ≤ 0x9F := by
  have h : ∀ (d : Fin 5) (i : Fin 32), keyPack d i ≤ 0x9F := by decide
  exact h ⟨d, by omega⟩ ⟨i, hi⟩

/-- The search of a non-empty window names a valid slot and a difference of at most 4 (R183). -/
theorem findBestMatch_slot_bound {f : Fifo} {w : Word} {i d : Nat} (h : f.count ≠ 0)
    (hfind : findBestMatch f w .slot = (i, d)) : i < f.count ∧ d ≤ 4 := by
  obtain ⟨⟨e, he, rfl⟩, -⟩ := streamingSearchTakesLowestLeast f w i d h hfind
  exact ⟨Fifo.lt_count_of_read he, classify_le _⟩

/-- Settles O10: it holds, as the record of a window with words is the key record of its search, which names a valid slot. -/
theorem encWordWritesKeyRecord : Obligations.EncWordWritesKeyRecord := by
  intro w s i d hwf hcount hfind hroom
  have hlength : (keyRecord i d w).length = 1 + d := by rw [keyRecord_length, Nat.add_comm]
  obtain ⟨t, hexec, ht⟩ := exec_encWord_of_le (Encoder.record_of_findBestMatch hcount hfind) hlength hroom
  obtain ⟨hi, hd⟩ := findBestMatch_slot_bound hcount hfind
  obtain ⟨⟨-, hcap⟩, hle, -, -⟩ := hwf
  have hkey : keyPack d i ≤ 0x9F := keyPack_le hd (hi.trans_le (hle.trans hcap))
  exact ⟨t, hexec, ht.answered, ht.readBack, hkey, hi, ht.pos, ht.strength, ht.win, ht.frame, ht.outside⟩

end Sys2Proof.Machine
end

section
/-! PROOFS. The encoder channel's other commands (R185, R187 to R190) and DEC_QUERY (R230): one equation per outcome of the two
commands that can raise a status, and the obligations read from them. -/

namespace Sys2Proof.Machine

theorem exec_encSetStrength_of_le {v : Byte} (s : State) (h : v.toNat ≤ 31) :
    exec (.encSetStrength v) s
      = .next ((s.withEnc { s.enc with strength := low5 v, win := Fifo.empty (v.toNat + 1) }).withReply
          ⟨.ok, .nothing⟩) :=
  if_neg h.not_gt

theorem exec_encSetStrength_of_gt {v : Byte} (s : State) (h : 31 < v.toNat) :
    exec (.encSetStrength v) s = .next (s.withReply ⟨.invalidStrength, .nothing⟩) :=
  if_pos h

theorem toNat_low5_of_le {v : Byte} (h : v.toNat ≤ 31) : (low5 v).toNat = v.toNat := by
  rw [low5, BitVec.toNat_setWidth]
  exact Nat.mod_eq_of_lt (Nat.lt_succ_of_le h)

/-- Settles O13: it holds, by the two sides of the range check. -/
theorem setStrengthRearmsWindow : Obligations.SetStrengthRearmsWindow := by
  intro v s
  by_cases h : v.toNat ≤ 31
  · refine ⟨_, exec_encSetStrength_of_le s h, fun _ => ?taken, fun hgt => absurd h hgt.not_ge⟩
    case taken => exact ⟨rfl, toNat_low5_of_le h, rfl, rfl, rfl, rfl, rfl, rfl, rfl, rfl, rfl⟩
  · exact ⟨_, exec_encSetStrength_of_gt s (not_le.1 h), fun hle => absurd hle h,
      fun _ => ⟨rfl, s.sameButReply_withReply _⟩⟩

theorem exec_encReadOut_of_gt {off len : Nat} {s : State} (h : s.enc.pos < off + len) :
    exec (.encReadOut off len) s = .next (s.withReply ⟨.outOfRange, .nothing⟩) :=
  if_pos h

theorem exec_encReadOut_of_readBytes {off len : Nat} {s : State} {b : List Byte} (h : off + len ≤ s.enc.pos)
    (hb : s.enc.out.readBytes off len = some b) :
    exec (.encReadOut off len) s = .next (s.withReply ⟨.ok, .bytes b⟩) := by
  simp only [exec, execEncReadOut, if_neg h.not_gt, hb, complete_eq]

/-- Settles O17: it holds, as a legal encoder has written every byte below `ENC_POS`. -/
theorem readOutReturnsBytesBelowPos : Obligations.ReadOutReturnsBytesBelowPos := by
  rintro off len s ⟨-, -, -, -, hwritten, -⟩
  by_cases h : off + len ≤ s.enc.pos
  · obtain ⟨b, hb, hlen, hbytes⟩ := Memory.readBytes_some (m := s.enc.out) (x := off) (len := len)
      fun a _ ha => hwritten a (ha.trans_le h)
    exact ⟨_, exec_encReadOut_of_readBytes h hb, s.sameButReply_withReply _, fun _ => ⟨b, rfl, hlen, hbytes⟩,
      fun hgt => absurd h hgt.not_ge⟩
  · exact ⟨_, exec_encReadOut_of_gt (not_le.1 h), s.sameButReply_withReply _, fun hle => absurd hle h, fun _ => rfl⟩

/-- Settles O16: it holds, as a range that reaches beyond 0 reaches beyond the rewound cursor. -/
theorem emptyOutputRewindsCursor : Obligations.EmptyOutputRewindsCursor := by
  intro s
  refine ⟨_, rfl, rfl, rfl, rfl, rfl, fun _ => rfl, ⟨rfl, rfl, rfl, rfl⟩, fun off len hbeyond => ?unreadable⟩
  case unreadable => exact ⟨_, exec_encReadOut_of_gt hbeyond, rfl, State.sameButReply_withReply _ _⟩

theorem Fifo.read_empty (c i : Nat) : (Fifo.empty c).read i = none :=
  (Fifo.read_eq_none_iff _ i).2 (Nat.zero_le i)

/-- Settles O15: it holds, as ENC_RESET writes the window alone. -/
theorem encResetEmptiesWindow : Obligations.EncResetEmptiesWindow :=
  fun s => ⟨_, rfl, rfl, rfl, rfl, rfl, Fifo.read_empty (s.enc.strength.toNat + 1), rfl, rfl, rfl, rfl, rfl, rfl, rfl⟩

/-- Settles O18: it holds, as a query writes the reply alone. -/
theorem queriesReturnRegisters : Obligations.QueriesReturnRegisters :=
  fun s => ⟨⟨_, rfl, rfl, s.sameButReply_withReply _⟩, ⟨_, rfl, rfl, s.sameButReply_withReply _⟩⟩

end Sys2Proof.Machine
end

section
/-! PROOFS. The row a streaming lead byte decodes to, by its range (R93, R218). -/

namespace Sys2Proof.Machine

theorem tagOf_eq_div (b : Byte) : tagOf b = b.toNat / 32 := by
  rw [tagOf, BitVec.toNat_ushiftRight, Nat.shiftRight_eq_div_pow]

theorem decodeStream_of_tagOf_key {b : Byte} (d : Fin 5) (h : tagOf b = d) :
    decodeStream b = streamKeyRow d (low5 b) := by
  unfold decodeStream
  rw [h]
  match d with
  | 0 | 1 | 2 | 3 | 4 => rfl

theorem decodeStream_keyPack (d : Fin 5) (i : BitVec 5) : decodeStream (keyPack d i.toNat) = streamKeyRow d i := by
  have hclass : tagOf (keyPack d i.toNat) = d := tagOf_keyPack (d.castLE (by decide)) i
  have hindex : low5 (keyPack d i.toNat) = i := low5_keyPack (d.castLE (by decide)) i
  rw [decodeStream_of_tagOf_key d hclass, hindex]

theorem decodeStream_of_key {b : Byte} (h : b ≤ 0x9F) : ∃ d : Fin 5, decodeStream b = streamKeyRow d (low5 b) := by
  have hclass : tagOf b < 5 := by rw [tagOf_eq_div]; bv_omega
  exact ⟨⟨tagOf b, hclass⟩, decodeStream_of_tagOf_key _ rfl⟩

theorem decodeStream_of_reserved {b : Byte} (hlo : 0xA0 ≤ b) (hhi : b ≤ 0xBF) : decodeStream b = .rsvdKeyD5 b := by
  have hclass : tagOf b = 5 := by rw [tagOf_eq_div]; bv_omega
  simp only [decodeStream, hclass]

theorem decodeStream_resetLead (v : BitVec 5) : decodeStream (0xC0 ||| v.setWidth 8) = .resetRec v := by
  have hclass : tagOf (keyPack 6 v.toNat) = 6 := tagOf_keyPack 6 v
  have hstrength : low5 (keyPack 6 v.toNat) = v := low5_keyPack 6 v
  simp only [resetLead_eq_keyPack, decodeStream, hclass, hstrength]

theorem decodeStream_of_escape {b : Byte} (h : 0xE0 ≤ b) : decodeStream b = .escInStream b := by
  have hclass : tagOf b = 7 := by rw [tagOf_eq_div]; bv_omega
  simp only [decodeStream, hclass]

end Sys2Proof.Machine
end

section
/-! PROOFS. DEC_WORD (R215 to R225). It runs the row of the first queued byte, so each record needs one equation per outcome of
its row; a row that raises a status leaves everything but the reply, and is said once for all rows. -/

namespace Sys2Proof.Machine

theorem exec_decWord_of_empty {s : State} (h : s.dec.input = []) :
    exec .decWord s = .next (s.withReply ⟨.needMoreData, .nothing⟩) := by
  simp only [exec, execDecWord, Decoder.inPeek, h, List.getElem?_nil, raise_eq]

theorem exec_decWord_of_row {s : State} {b : Byte} {i : Instr} (hlead : s.dec.input[0]? = some b)
    (hrow : decodeStream b = i) : exec .decWord s = exec i s := by
  calc exec .decWord s = runStreamRecord b s := by simp only [exec, execDecWord, Decoder.inPeek, hlead]
    _ = exec i s := by rw [runStreamRecord_eq_exec, hrow]

/-- Settles O7: it holds, by the two cases of the first queued byte. -/
theorem decWordRunsLeadRecord : Obligations.DecWordRunsLeadRecord :=
  fun _ => ⟨exec_decWord_of_empty, fun _ _ hin => exec_decWord_of_row (by rw [hin]; rfl) rfl⟩

/-- A row that raises a status at the head of the queue raises it from DEC_WORD too, and nothing but the reply changes (R302). -/
theorem decWord_raises {s : State} {b : Byte} {i : Instr} {e : Status} (hlead : s.dec.input[0]? = some b)
    (hrow : decodeStream b = i) (hraise : exec i s = .next (s.withReply ⟨e, .nothing⟩)) :
    ∃ t, exec i s = .next t ∧ exec .decWord s = .next t ∧ t.answered e .nothing ∧ t.sameButReply s :=
  ⟨_, hraise, (exec_decWord_of_row hlead hrow).trans hraise, rfl, s.sameButReply_withReply _⟩

theorem exec_streamKeyRow_of_badIndex (d : Fin 5) {i : BitVec 5} {s : State} (h : s.dec.win.count ≤ i.toNat) :
    exec (streamKeyRow d i) s = .next (s.withReply ⟨.invalidBackReference, .nothing⟩) := by
  have hread : s.dec.win.read i.toNat = none := (Fifo.read_eq_none_iff _ _).2 h
  simp only [exec_streamKeyRow, streamKey, hread, raise_eq]

theorem exec_streamKeyRow_of_short {d : Fin 5} {i : BitVec 5} {s : State} (hi : i.toNat < s.dec.win.count)
    (hshort : s.dec.input.length < 1 + d.val) :
    exec (streamKeyRow d i) s = .next (s.withReply ⟨.needMoreData, .nothing⟩) := by
  obtain ⟨e, hread⟩ := Option.isSome_iff_exists.1 ((Fifo.read_isSome_iff s.dec.win i.toNat).2 hi)
  simp only [exec_streamKeyRow, streamKey, hread, if_pos hshort, raise_eq]

/-- Settles O21: it holds, as the bad index is found before the queue is measured. -/
theorem keyRecordChecksIndexFirst : Obligations.KeyRecordChecksIndexFirst := fun d i _ hlead =>
  ⟨fun hbad => decWord_raises hlead (decodeStream_keyPack d i) (exec_streamKeyRow_of_badIndex d hbad),
    fun hi hshort => decWord_raises hlead (decodeStream_keyPack d i) (exec_streamKeyRow_of_short hi hshort)⟩

theorem Fifo.insert_empty (n : Nat) (w : Word) :
    (Fifo.empty (n + 1)).insert w = { slots := [w], oldest := 0, cap := n + 1 } :=
  Fifo.insert_not_full w (Nat.succ_pos n)

theorem exec_resetRec_of_record {v : BitVec 5} {w : Word} {b : Byte} {rest : List Byte} {s : State}
    (h : s.dec.input = b :: (leBytes w 4 ++ rest)) :
    exec (.resetRec v) s = .next ((s.withDec
      { strength := v, win := { slots := [w], oldest := 0, cap := v.toNat + 1 }, input := rest }).withReply
        ⟨.ok, .word w⟩) := by
  simp only [exec, execResetRec, h, leBytes_four, List.cons_append, List.nil_append, le32_bytes, Fifo.clear_eq,
    Fifo.insert_empty, complete_eq]

theorem exec_resetRec_of_short (v : BitVec 5) {s : State} (h : s.dec.input.length < 5) :
    exec (.resetRec v) s = .next (s.withReply ⟨.needMoreData, .nothing⟩) := by
  obtain ⟨-, hexec⟩ | ⟨_, _, _, _, _, _, hin, -⟩ := execResetRec_cases v s
  · exact hexec
  · simp only [hin, List.length_cons] at h
    omega

/-- Settles O22: it holds, as the record overwrites the strength and the window, whatever they were. -/
theorem resetRecordStartsEpoch : Obligations.ResetRecordStartsEpoch := by
  intro v s
  constructor
  · intro w rest hin
    have hexec := exec_resetRec_of_record (v := v) hin
    have hlead : s.dec.input[0]? = some (0xC0 ||| v.setWidth 8) := by rw [hin]; rfl
    have hword := exec_decWord_of_row hlead (decodeStream_resetLead v)
    exact ⟨_, hexec, hword.trans hexec, rfl, rfl, rfl, rfl, rfl, rfl, rfl, rfl, rfl, rfl⟩
  · intro hhead hshort
    have hlead : s.dec.input[0]? = some (0xC0 ||| v.setWidth 8) := List.head?_eq_getElem?.symm.trans hhead
    exact decWord_raises hlead (decodeStream_resetLead v) (exec_resetRec_of_short v hshort)

/-- A lead byte whose row raises its status in every state raises it again, as it stays at the head of the queue. -/
theorem decWord_raises_again {s : State} {b : Byte} {i : Instr} {e : Status} (hlead : s.dec.input[0]? = some b)
    (hrow : decodeStream b = i) (hraise : ∀ u, exec i u = .next (u.withReply ⟨e, .nothing⟩)) :
    ∃ t, exec i s = .next t ∧ exec .decWord s = .next t ∧ t.answered e .nothing ∧ t.sameButReply s
      ∧ exec .decWord t = .next t := by
  have hagain : exec .decWord (s.withReply ⟨e, .nothing⟩) = .next (s.withReply ⟨e, .nothing⟩) :=
    (exec_decWord_of_row (s := s.withReply _) hlead hrow).trans (hraise _)
  exact ⟨_, hraise s, (exec_decWord_of_row hlead hrow).trans (hraise s), rfl, s.sameButReply_withReply _, hagain⟩

/-- Settles O23: it holds, as both rows raise their status in every state. -/
theorem escapeAndReservedConsumeNothing : Obligations.EscapeAndReservedConsumeNothing := by
  intro b r s hin
  have hlead : s.dec.input[0]? = some b := by rw [hin]; rfl
  exact ⟨fun hesc => decWord_raises_again hlead (decodeStream_of_escape hesc) fun _ => rfl,
    fun hlo hhi => decWord_raises_again hlead (decodeStream_of_reserved hlo hhi) fun _ => rfl⟩

theorem exec_decWord_of_key_of_empty_window {s : State} {b : Byte} (hempty : s.dec.win.count = 0)
    (hlead : s.dec.input[0]? = some b) (hkey : b ≤ 0x9F) :
    exec .decWord s = .next (s.withReply ⟨.invalidBackReference, .nothing⟩) := by
  obtain ⟨d, hrow⟩ := decodeStream_of_key hkey
  have hbad : s.dec.win.count ≤ (low5 b).toNat := hempty.le.trans (Nat.zero_le _)
  exact (exec_decWord_of_row hlead hrow).trans (exec_streamKeyRow_of_badIndex d hbad)

theorem not_answered_word_of_raises {s t : State} {e : Status} {w : Word}
    (hraise : exec .decWord s = .next (s.withReply ⟨e, .nothing⟩)) (hexec : exec .decWord s = .next t) :
    ¬ t.answered .ok (.word w) := by
  cases hraise.symm.trans hexec
  exact nofun

/-- With no valid slot only the reset row can answer a word: the key, reserved and escape rows all raise a status (R225). -/
theorem resetLead_of_word_of_empty_window {s t : State} {b : Byte} {w : Word} (hempty : s.dec.win.count = 0)
    (hlead : s.dec.input[0]? = some b) (hexec : exec .decWord s = .next t) (hword : t.answered .ok (.word w)) :
    0xC0 ≤ b ∧ b ≤ 0xDF := by
  have hkey : ¬ b ≤ 0x9F := fun h =>
    not_answered_word_of_raises (exec_decWord_of_key_of_empty_window hempty hlead h) hexec hword
  have hreserved : ¬ (0xA0 ≤ b ∧ b ≤ 0xBF) := fun ⟨hlo, hhi⟩ =>
    not_answered_word_of_raises (exec_decWord_of_row hlead (decodeStream_of_reserved hlo hhi)) hexec hword
  have hescape : ¬ 0xE0 ≤ b := fun h =>
    not_answered_word_of_raises (exec_decWord_of_row hlead (decodeStream_of_escape h)) hexec hword
  constructor <;> bv_omega

/-- Settles O25: it holds, as a key byte has no valid slot to name. -/
theorem onlyResetRecordIntoEmptyWindow : Obligations.OnlyResetRecordIntoEmptyWindow := by
  refine ⟨fun _ => rfl, fun s t hreset => by cases hreset; rfl, fun s b r hempty hin => ?_⟩
  have hlead : s.dec.input[0]? = some b := by rw [hin]; rfl
  exact ⟨fun hkey => ⟨_, exec_decWord_of_key_of_empty_window hempty hlead hkey, rfl, s.sameButReply_withReply _⟩,
    fun _ _ => resetLead_of_word_of_empty_window hempty hlead⟩

end Sys2Proof.Machine
end

section
/-! PROOFS. The decoder channel's other commands: DEC_AUGMENT, which compares the queue it would leave with `IN_CAP` (R210,
R211), DEC_RESET (R228) and DEC_DISCARD (R229). -/

namespace Sys2Proof.Machine

theorem within_iff (n : Nat) (limit : Option Nat) : within n limit = true ↔ ∀ c, limit = some c → n ≤ c := by
  cases limit with
  | none => simp [within]
  | some c => simp [within]

theorem exec_decAugment_nil (s : State) :
    exec (.decAugment []) s = .next (s.withReply ⟨.nullOrEmptyBuffer, .nothing⟩) := rfl

theorem exec_decAugment_of_fits {b : List Byte} {s : State} (hb : b ≠ [])
    (h : ∀ c, s.limits.inCap = some c → s.dec.input.length + b.length ≤ c) :
    exec (.decAugment b) s
      = .next ((s.withDec { s.dec with input := s.dec.input ++ b }).withReply ⟨.ok, .nothing⟩) := by
  have hlength : b.length ≠ 0 := mt List.length_eq_zero_iff.1 hb
  simp only [exec, execDecAugment, if_neg hlength, if_pos ((within_iff _ _).2 h), complete_eq]

theorem exec_decAugment_of_full {b : List Byte} {s : State} {c : Nat} (hb : b ≠ []) (hc : s.limits.inCap = some c)
    (h : c < s.dec.input.length + b.length) :
    exec (.decAugment b) s = .next (s.withReply ⟨.inputFull, .nothing⟩) := by
  have hlength : b.length ≠ 0 := mt List.length_eq_zero_iff.1 hb
  have hwithin : ¬ within (s.dec.input.length + b.length) s.limits.inCap = true :=
    fun hw => h.not_ge ((within_iff _ _).1 hw c hc)
  simp only [exec, execDecAugment, if_neg hlength, if_neg hwithin, raise_eq]

/-- Settles O19: it holds, by the empty sequence and the two sides of the capacity check. -/
theorem augmentAppendsBytes : Obligations.AugmentAppendsBytes := by
  intro b s
  by_cases hb : b = []
  · subst hb
    exact ⟨_, exec_decAugment_nil s, fun _ => ⟨rfl, s.sameButReply_withReply _⟩, fun h => absurd rfl h,
      fun h => absurd rfl h⟩
  by_cases hfits : ∀ c, s.limits.inCap = some c → s.dec.input.length + b.length ≤ c
  · exact ⟨_, exec_decAugment_of_fits hb hfits, fun h => absurd h hb,
      fun _ ⟨c, hc, hgt⟩ => absurd (hfits c hc) hgt.not_ge, fun _ _ => ⟨rfl, rfl, rfl, rfl, rfl, rfl, rfl, rfl⟩⟩
  · push Not at hfits
    obtain ⟨c, hc, hgt⟩ := hfits
    exact ⟨_, exec_decAugment_of_full hb hc hgt, fun h => absurd h hb, fun _ _ => ⟨rfl, s.sameButReply_withReply _⟩,
      fun _ hle => absurd (hle c hc) hgt.not_ge⟩

/-- Settles O26: it holds, as DEC_RESET writes the window alone. -/
theorem decResetEmptiesWindow : Obligations.DecResetEmptiesWindow :=
  fun s => ⟨_, rfl, rfl, rfl, rfl, rfl, Fifo.read_empty (s.dec.strength.toNat + 1), rfl, rfl, rfl, rfl, rfl, rfl⟩

/-- Settles O27: it holds, as the queue it leaves is empty. -/
theorem discardDropsInput : Obligations.DiscardDropsInput :=
  fun _ => ⟨_, rfl, rfl, rfl, rfl, rfl, ⟨rfl, rfl, rfl, rfl⟩,
    _, exec_decWord_of_empty rfl, rfl, State.sameButReply_withReply _ _⟩

end Sys2Proof.Machine
end

section
/-! PROOFS. The two bulk commands as commands (R250, R251, R259): one equation per outcome of their operand checks. Their reply
is a function of the operands and the limits, so each clause of an obligation is read from the equation of its outcome. -/

namespace Sys2Proof.Machine

/-- What BLK_COMPRESS's operand checks ask of the block and the strength (R251). -/
structure State.AcceptsBlock (s : State) (b : List Byte) (v : Byte) : Prop where
  nonempty : b ≠ []
  wholeWords : b.length % 4 = 0
  withinMax : ∀ m, s.limits.blkMax = some m → b.length ≤ m
  strength : v.toNat ≤ 31

theorem not_within_of_lt {n m : Nat} {limit : Option Nat} (hm : limit = some m) (h : m < n) :
    (!within n limit) = true := by
  simp [within, hm, h]

theorem exec_blkCompress_nil (v : Byte) (s : State) :
    exec (.blkCompress [] v) s = .next (s.withReply ⟨.nullOrEmptyBuffer, .nothing⟩) := rfl

theorem exec_blkCompress_of_partWord {b : List Byte} (v : Byte) (s : State) (hb : b ≠ []) (h : b.length % 4 ≠ 0) :
    exec (.blkCompress b v) s = .next (s.withReply ⟨.invalidLength, .nothing⟩) := by
  have hlength : b.length ≠ 0 := mt List.length_eq_zero_iff.1 hb
  simp only [exec, execBlkCompress, if_neg hlength, if_pos h, raise_eq]

theorem exec_blkCompress_of_tooLong {b : List Byte} (v : Byte) {s : State} {m : Nat} (hb : b ≠ [])
    (hwords : b.length % 4 = 0) (hm : s.limits.blkMax = some m) (h : m < b.length) :
    exec (.blkCompress b v) s = .next (s.withReply ⟨.outOfRange, .nothing⟩) := by
  have hlength : b.length ≠ 0 := mt List.length_eq_zero_iff.1 hb
  simp only [exec, execBlkCompress, if_neg hlength, if_neg (not_not.2 hwords), if_pos (not_within_of_lt hm h), raise_eq]

theorem exec_blkCompress_of_badStrength {b : List Byte} {v : Byte} {s : State} (hb : b ≠ [])
    (hwords : b.length % 4 = 0) (hmax : ∀ m, s.limits.blkMax = some m → b.length ≤ m) (h : 31 < v.toNat) :
    exec (.blkCompress b v) s = .next (s.withReply ⟨.invalidStrength, .nothing⟩) := by
  have hlength : b.length ≠ 0 := mt List.length_eq_zero_iff.1 hb
  have hwithin := (within_iff _ _).2 hmax
  simp [exec, execBlkCompress, hlength, hwords, hwithin, h]

theorem exec_blkCompress_of_accepted {b : List Byte} {v : Byte} {s : State} (h : s.AcceptsBlock b v) :
    exec (.blkCompress b v) s = .next (s.withReply ⟨.ok, .bytes (compressBlock b v)⟩) := by
  obtain ⟨hb, hwords, hmax, hstrength⟩ := h
  have hwithin := (within_iff _ _).2 hmax
  simp [exec, execBlkCompress, hb, hwords, hwithin, hstrength.not_gt]

/-- A command that writes the reply alone has one reply. -/
theorem answered_of_exec {i : Instr} {s t : State} {e : Status} {r : Result} (hexec : exec i s = .next t)
    (h : exec i s = .next (s.withReply ⟨e, r⟩)) : t.answered e r := by
  cases hexec.symm.trans h
  rfl

/-- Settles O35: it holds, by the equation of each outcome of the checks. -/
theorem compressChecksOperandsInOrder : Obligations.CompressChecksOperandsInOrder := by
  intro b v s
  obtain ⟨r, hr⟩ := exec_bulk_local (.blkCompress b v) s rfl
  have hexec : exec (.blkCompress b v) s = .next (s.withReply r) := hr s rfl
  refine ⟨_, hexec, s.sameButReply_withReply r, ?empty, ?partWord, ?tooLong, ?badStrength, ?accepted⟩
  case empty =>
    rintro rfl
    exact answered_of_exec hexec (exec_blkCompress_nil v s)
  case partWord => exact fun hb h => answered_of_exec hexec (exec_blkCompress_of_partWord v s hb h)
  case tooLong =>
    rintro hb hwords ⟨m, hm, hlong⟩
    exact answered_of_exec hexec (exec_blkCompress_of_tooLong v hb hwords hm hlong)
  case badStrength =>
    exact fun hb hwords hmax h => answered_of_exec hexec (exec_blkCompress_of_badStrength hb hwords hmax h)
  case accepted =>
    exact fun hb hwords hmax h =>
      ⟨_, answered_of_exec hexec (exec_blkCompress_of_accepted ⟨hb, hwords, hmax, h⟩)⟩

/-- BLK_COMPRESS answers OK for accepted operands alone: each failed check answers its own status. -/
theorem acceptsBlock_of_ok {b c : List Byte} {v : Byte} {s t : State} (hexec : exec (.blkCompress b v) s = .next t)
    (hok : t.answered .ok (.bytes c)) : s.AcceptsBlock b v := by
  obtain ⟨t', hexec', -, hempty, hpart, hlong, hbad, -⟩ := compressChecksOperandsInOrder b v s
  cases hexec'.symm.trans hexec
  have hstatus {e : Status} (h : t.answered e .nothing) : False := by cases hok.symm.trans h
  have hb : b ≠ [] := fun h => hstatus (hempty h)
  have hwords : b.length % 4 = 0 := by
    by_contra h
    exact hstatus (hpart hb h)
  have hmax : ∀ m, s.limits.blkMax = some m → b.length ≤ m := by
    intro m hm
    by_contra h
    exact hstatus (hlong hb hwords ⟨m, hm, not_le.1 h⟩)
  refine ⟨hb, hwords, hmax, ?_⟩
  by_contra h
  exact hstatus (hbad hb hwords hmax (not_le.1 h))

theorem exec_blkCompress_ok {b c : List Byte} {v : Byte} {s t : State} (hexec : exec (.blkCompress b v) s = .next t)
    (hok : t.answered .ok (.bytes c)) : s.AcceptsBlock b v ∧ c = compressBlock b v := by
  have haccepts := acceptsBlock_of_ok hexec hok
  cases hok.symm.trans (answered_of_exec hexec (exec_blkCompress_of_accepted haccepts))
  exact ⟨haccepts, rfl⟩

theorem exec_blkDecompress_nil (s : State) :
    exec (.blkDecompress []) s = .next (s.withReply ⟨.nullOrEmptyBuffer, .nothing⟩) := rfl

theorem exec_blkDecompress_of_tooLong {b : List Byte} {s : State} {m : Nat} (hm : s.limits.blkMax = some m)
    (h : m + 1 < b.length) : exec (.blkDecompress b) s = .next (s.withReply ⟨.outOfRange, .nothing⟩) := by
  have hlength : b.length ≠ 0 := Nat.ne_zero_of_lt h
  have hlimit : s.limits.blkMaxEscaped = some (m + 1) := congrArg (Option.map (· + 1)) hm
  simp only [exec, execBlkDecompress, if_neg hlength, if_pos (not_within_of_lt hlimit h), raise_eq]

/-- The reply for what the records of a block gave: its bytes, or the status one of them raised (R302). -/
def blockReply : Except Status (List Byte) → Reply
  | .ok r => ⟨.ok, .bytes r⟩
  | .error e => ⟨e, .nothing⟩

theorem exec_blkDecompress_of_within {b : List Byte} {s : State} (hb : b ≠ [])
    (h : ∀ m, s.limits.blkMax = some m → b.length ≤ m + 1) :
    exec (.blkDecompress b) s = .next (s.withReply (blockReply (decompressBlock b))) := by
  have hwithin : within b.length s.limits.blkMaxEscaped = true := by
    simpa [within_iff, Limits.blkMaxEscaped] using h
  simp only [exec, execBlkDecompress, List.length_eq_zero_iff, hb, hwithin]
  cases decompressBlock b <;> rfl

/-- What an OK from BLK_DECOMPRESS says: the block has a header and decompresses to the answer. -/
theorem exec_blkDecompress_ok {b c : List Byte} {s t : State} (hexec : exec (.blkDecompress b) s = .next t)
    (hok : t.answered .ok (.bytes c)) : b ≠ [] ∧ decompressBlock b = .ok c := by
  have hb : b ≠ [] := by
    rintro rfl
    cases hok.symm.trans (answered_of_exec hexec (exec_blkDecompress_nil s))
  have hmax : ∀ m, s.limits.blkMax = some m → b.length ≤ m + 1 := by
    intro m hm
    by_contra h
    cases hok.symm.trans (answered_of_exec hexec (exec_blkDecompress_of_tooLong hm (not_le.1 h)))
  have hreply := hok.symm.trans (answered_of_exec hexec (exec_blkDecompress_of_within hb hmax))
  refine ⟨hb, ?_⟩
  cases hd : decompressBlock b with
  | ok r => rw [hd] at hreply; cases hreply; rfl
  | error e => rw [hd] at hreply; cases hreply

end Sys2Proof.Machine
end

section
/-! PROOFS. A block by its header (R260, R261): an escape block gives its bytes back, a short one is malformed, and a compressed
one runs its body records on the scratch its header and first word leave. -/

namespace Sys2Proof.Machine

/-- The scratch after the header and the first word of a compressed block, with `rest` still to read (R261). -/
def Scratch.seeded (cap : Nat) (w0 : Word) (rest : List Byte) : Scratch :=
  { win := (Fifo.empty cap).insert w0, input := rest, out := leBytes w0 4 }

theorem decompressBlock_of_escape {h : Byte} (r : List Byte) (hesc : 0xE0 ≤ h) : decompressBlock (h :: r) = .ok r := by
  simp only [decompressBlock, if_pos (show h ≥ 0xE0 from hesc)]

theorem bulkHeader_load_of_short (h : Byte) {r : List Byte} (hshort : r.length < 4) :
    bulkHeader (low5 h) (Scratch.load (h :: r)) = .error .malformedBoundary := by
  obtain ⟨-, herr⟩ | ⟨_, _, _, _, _, _, hin, -⟩ := bulkHeader_cases (low5 h) (Scratch.load (h :: r))
  · exact herr
  · simp only [Scratch.load, List.cons.injEq] at hin
    simp only [hin.2, List.length_cons] at hshort
    omega

theorem bulkHeader_load_of_word (h : Byte) (w0 : Word) (rest : List Byte) :
    bulkHeader (low5 h) (Scratch.load (h :: (leBytes w0 4 ++ rest)))
      = .ok (Scratch.seeded ((low5 h).toNat + 1) w0 rest) := by
  simp only [Scratch.load, leBytes_four, List.cons_append, List.nil_append, bulkHeader, le32_bytes, Fifo.clear_eq,
    Scratch.seeded]

theorem decompressBlock_of_short {h : Byte} {r : List Byte} (hcomp : h < 0xE0) (hshort : r.length < 4) :
    decompressBlock (h :: r) = .error .malformedBoundary := by
  simp only [decompressBlock, if_neg (show ¬ h ≥ 0xE0 by bv_omega), bulkHeader_load_of_short h hshort]

theorem decompressBlock_of_word {h : Byte} (w0 : Word) (rest : List Byte) (hcomp : h < 0xE0) :
    decompressBlock (h :: (leBytes w0 4 ++ rest))
      = (bulkBody rest.length (Scratch.seeded ((low5 h).toNat + 1) w0 rest)).map Scratch.out := by
  have hlen : (Scratch.seeded ((low5 h).toNat + 1) w0 rest).input.length = rest.length := rfl
  simp only [decompressBlock, if_neg (show ¬ h ≥ 0xE0 by bv_omega), bulkHeader_load_of_word, hlen]
  cases bulkBody rest.length (Scratch.seeded ((low5 h).toNat + 1) w0 rest) <;> rfl

/-- At least 4 bytes begin with the bytes of a word. -/
theorem exists_word_append {r : List Byte} (h : 4 ≤ r.length) :
    ∃ (w0 : Word) (rest : List Byte), r = leBytes w0 4 ++ rest := by
  match r, h with
  | b0 :: b1 :: b2 :: b3 :: rest, _ => exact ⟨le32 b0 b1 b2 b3, rest, by rw [leBytes_le32]; rfl⟩

/-- What a compressed block that decompresses is: a first word and a body whose records all succeed. -/
theorem decompressBlock_ok_of_compressed {h : Byte} {r c : List Byte} (hcomp : h < 0xE0)
    (hok : decompressBlock (h :: r) = .ok c) :
    ∃ (w0 : Word) (rest : List Byte) (sc : Scratch), r = leBytes w0 4 ++ rest
      ∧ bulkBody rest.length (Scratch.seeded ((low5 h).toNat + 1) w0 rest) = .ok sc ∧ c = sc.out := by
  have hfour : 4 ≤ r.length := by
    by_contra hshort
    cases hok.symm.trans (decompressBlock_of_short hcomp (not_le.1 hshort))
  obtain ⟨w0, rest, rfl⟩ := exists_word_append hfour
  rw [decompressBlock_of_word w0 rest hcomp] at hok
  cases hbody : bulkBody rest.length (Scratch.seeded ((low5 h).toNat + 1) w0 rest) with
  | ok sc =>
    rw [hbody] at hok
    cases hok
    exact ⟨w0, rest, sc, rfl, hbody, rfl⟩
  | error e => rw [hbody] at hok; cases hok

/-- Settles O38: it holds, by the operand checks and then the two cases of the header. -/
theorem decompressChecksAndEscape : Obligations.DecompressChecksAndEscape := by
  intro b s
  refine ⟨?empty, ?tooLong, ?within⟩
  case empty =>
    rintro rfl
    exact ⟨_, exec_blkDecompress_nil s, rfl, s.sameButReply_withReply _⟩
  case tooLong =>
    rintro - ⟨m, hm, hlong⟩
    exact ⟨_, exec_blkDecompress_of_tooLong hm hlong, rfl, s.sameButReply_withReply _⟩
  case within =>
    rintro h r rfl hmax
    have hexec := exec_blkDecompress_of_within (List.cons_ne_nil h r) hmax
    constructor
    · intro hesc
      rw [decompressBlock_of_escape r hesc] at hexec
      exact ⟨_, hexec, rfl, s.sameButReply_withReply _⟩
    · intro hcomp hshort
      rw [decompressBlock_of_short hcomp hshort] at hexec
      exact ⟨_, hexec, rfl, s.sameButReply_withReply _⟩

end Sys2Proof.Machine
end

section
/-! PROOFS. The size of a decompressed block (R265, R266): every body record that succeeds reads one key record, at least its key
byte, and appends the 4 bytes of one word. -/

namespace Sys2Proof.Machine

/-- A key byte of difference 0 to 4 and as many payload bytes (R99). -/
def IsKeyRecord (rec : List Byte) : Prop :=
  ∃ (d : Fin 5) (i : BitVec 5) (p : List Byte), rec = keyPack d.val i.toNat :: p ∧ p.length = d.val

theorem IsKeyRecord.length_pos {rec : List Byte} (h : IsKeyRecord rec) : 1 ≤ rec.length := by
  obtain ⟨d, i, p, rfl, -⟩ := h
  exact Nat.succ_pos p.length

theorem length_le_length_flatten_of_isKeyRecord {recs : List (List Byte)} (h : ∀ rec ∈ recs, IsKeyRecord rec) :
    recs.length ≤ recs.flatten.length := by
  have hsum : (recs.map List.length).length ≤ (recs.map List.length).sum :=
    List.length_le_sum_of_one_le _ (List.forall_mem_map.2 fun rec hrec => (h rec hrec).length_pos)
  simpa [List.length_flatten] using hsum

/-- A key-position byte whose record succeeds is a key, its payload follows it, and one word is appended to the result. -/
theorem bulkRecord_ok {k : Byte} {r : List Byte} {sc sc' : Scratch} (hin : sc.input = k :: r)
    (h : bulkRecord k sc = .ok sc') :
    ∃ (rec : List Byte) (w : Word), IsKeyRecord rec ∧ sc.input = rec ++ sc'.input ∧ sc'.out = sc.out ++ leBytes w 4 := by
  rw [bulkRecord_eq] at h
  split at h
  case isTrue => cases h
  case isFalse hd =>
    obtain ⟨-, herr⟩ | ⟨_, -, -, herr⟩ | ⟨_, w, -, hlen, -, hkey⟩ := bulkKey_cases (tagOf k) (low5 k) sc
    · cases herr.symm.trans h
    · cases herr.symm.trans h
    · cases hkey.symm.trans h
      rw [hin, List.length_cons, Nat.add_comm, Nat.add_le_add_iff_right] at hlen
      have hrecord : IsKeyRecord (k :: r.take (tagOf k)) :=
        ⟨⟨tagOf k, not_le.1 hd⟩, low5 k, r.take (tagOf k), by rw [keyPack_tagOf_low5], List.length_take_of_le hlen⟩
      refine ⟨k :: r.take (tagOf k), w, hrecord, ?_, rfl⟩
      rw [hin, Nat.add_comm, List.drop_succ_cons, List.cons_append, List.take_append_drop]

/-- A body that is read to its end is a sequence of key records, and the result grows by one word for each. -/
theorem bulkBody_ok {n : Nat} {sc sc' : Scratch} (hn : sc.input.length ≤ n) (h : bulkBody n sc = .ok sc') :
    ∃ recs : List (List Byte), sc.input = recs.flatten ∧ (∀ rec ∈ recs, IsKeyRecord rec)
      ∧ sc'.out.length = sc.out.length + 4 * recs.length := by
  induction n generalizing sc with
  | zero =>
    cases h
    exact ⟨[], List.length_eq_zero_iff.1 (Nat.le_zero.1 hn), by simp, rfl⟩
  | succ n ih =>
    rw [bulkBody] at h
    split at h
    next hin =>
      cases h
      exact ⟨[], hin, by simp, rfl⟩
    next k r hin =>
      split at h
      next => cases h
      next sc₁ hrecord =>
        obtain ⟨rec, w, hrec, hread, hout⟩ := bulkRecord_ok hin hrecord
        have hshorter : sc₁.input.length ≤ n := by
          have hlen := congrArg List.length hread
          have hpos := hrec.length_pos
          rw [List.length_append] at hlen
          omega
        obtain ⟨recs, hrecs, hall, hlen⟩ := ih hshorter h
        refine ⟨rec :: recs, by rw [hread, hrecs, List.flatten_cons], List.forall_mem_cons.2 ⟨hrec, hall⟩, ?_⟩
        rw [hlen, hout, List.length_append, leBytes_length, List.length_cons]
        omega

/-- The compressed path of R265. -/
theorem decompressBlock_records {h : Byte} {r c : List Byte} (hcomp : h < 0xE0)
    (hok : decompressBlock (h :: r) = .ok c) :
    ∃ (w0 : Word) (recs : List (List Byte)), r = leBytes w0 4 ++ recs.flatten ∧ (∀ rec ∈ recs, IsKeyRecord rec)
      ∧ recs.length + 5 ≤ (h :: r).length ∧ c.length = 4 + 4 * recs.length := by
  obtain ⟨w0, rest, sc, rfl, hbody, rfl⟩ := decompressBlock_ok_of_compressed hcomp hok
  obtain ⟨recs, hrest, hall, hlen⟩ := bulkBody_ok (sc := Scratch.seeded ((low5 h).toNat + 1) w0 rest) le_rfl hbody
  obtain rfl : rest = recs.flatten := hrest
  refine ⟨w0, recs, rfl, hall, ?_, hlen⟩
  have hkeys := length_le_length_flatten_of_isKeyRecord hall
  simp only [List.length_cons, List.length_append, leBytes_length]
  omega

/-- Settles O43: it holds, by the escape path and the key records of the compressed path. -/
theorem decompressedSizeBound : Obligations.DecompressedSizeBound := by
  intro b c s t hexec hok
  obtain ⟨hb, hblock⟩ := exec_blkDecompress_ok hexec hok
  obtain ⟨h, r, rfl⟩ := List.exists_cons_of_ne_nil hb
  have hescape (hesc : 0xE0 ≤ h) : c.length = (h :: r).length - 1 := by
    cases hblock.symm.trans (decompressBlock_of_escape r hesc)
    rfl
  refine ⟨?bound, rfl, ?paths⟩
  case bound =>
    rw [maximumDecompressedSize]
    by_cases hesc : 0xE0 ≤ h
    · have hlen := hescape hesc
      omega
    · obtain ⟨-, recs, -, -, hkeys, hlen⟩ := decompressBlock_records (BitVec.not_le.1 hesc) hblock
      omega
  case paths =>
    rintro _ _ ⟨rfl, rfl⟩
    refine ⟨hescape, fun hcomp => ?_⟩
    obtain ⟨w0, recs, hr, hall, hkeys, hlen⟩ := decompressBlock_records hcomp hblock
    exact ⟨w0, recs, hr, hall, hkeys, hlen⟩

end Sys2Proof.Machine
end

section
/-! PROOFS. What BLK_COMPRESS returns (R252 to R256): the words of an accepted block, the key record of each later word, and the
escape rule. -/

namespace Sys2Proof.Machine

theorem Fifo.insertAll_cap (f : Fifo) (ws : List Word) : (f.insertAll ws).cap = f.cap := by
  induction ws generalizing f with
  | nil => rfl
  | cons w ws ih => exact (ih (f.insert w)).trans (f.insert_cap w)

/-- The key record of each word, searched in the window that holds the words before it (R255). -/
def bodyRecords : Fifo → List Word → List (List Byte)
  | _, [] => []
  | f, w :: ws => keyRecord (findBestMatch f w .age).1 (findBestMatch f w .age).2 w :: bodyRecords (f.insert w) ws

theorem compressWords_eq_flatten (f : Fifo) (ws : List Word) : compressWords f ws = (bodyRecords f ws).flatten := by
  induction ws generalizing f with
  | nil => rfl
  | cons w ws ih => rw [compressWords, bodyRecords, List.flatten_cons, ih]

theorem length_bodyRecords (f : Fifo) (ws : List Word) : (bodyRecords f ws).length = ws.length := by
  induction ws generalizing f with
  | nil => rfl
  | cons w ws ih => rw [bodyRecords, List.length_cons, ih, List.length_cons]

theorem getElem?_bodyRecords {f : Fifo} {ws : List Word} {k i d : Nat} {w : Word} (hw : ws[k]? = some w)
    (hfind : findBestMatch (f.insertAll (ws.take k)) w .age = (i, d)) :
    (bodyRecords f ws)[k]? = some (keyRecord i d w) := by
  induction ws generalizing f k with
  | nil => cases hw
  | cons w' ws ih =>
    cases k with
    | zero =>
      cases hw
      rw [bodyRecords, show findBestMatch f w .age = (i, d) from hfind]
      rfl
    | succ k => exact ih hw hfind

theorem compressedForm_eq (v : Byte) (w0 : Word) (ws : List Word) :
    compressedForm v w0 ws = v :: (leBytes w0 4 ++ compressWords ((Fifo.empty (v.toNat + 1)).insert w0) ws) := rfl

theorem compressBlock_of_oneWord {b : List Byte} {w0 : Word} (v : Byte) (h : blockWords b = [w0]) :
    compressBlock b v = (0xE0 ||| v) :: b := by
  simp only [compressBlock, h, escapeBlock]

theorem compressBlock_of_words {b : List Byte} {w0 : Word} {ws : List Word} (v : Byte) (h : blockWords b = w0 :: ws)
    (hws : ws ≠ []) :
    compressBlock b v = if (compressedForm v w0 ws).length < b.length then compressedForm v w0 ws
      else (0xE0 ||| v) :: b := by
  obtain ⟨w1, ws, rfl⟩ := List.exists_cons_of_ne_nil hws
  simp only [compressBlock, h, escapeBlock, ge_iff_le, ← not_lt, ite_not]

theorem State.AcceptsBlock.exists_words {s : State} {b : List Byte} {v : Byte} (h : s.AcceptsBlock b v) :
    ∃ (w0 : Word) (ws : List Word), blockWords b = w0 :: ws ∧ b = (w0 :: ws).flatMap (leBytes · 4) := by
  obtain ⟨n, hn⟩ := Nat.dvd_of_mod_eq_zero h.wholeWords
  obtain ⟨-, hbytes⟩ := blockWords_spec n b hn
  have hwords : blockWords b ≠ [] := by
    intro hnil
    rw [hnil] at hbytes
    exact h.nonempty hbytes.symm
  obtain ⟨w0, ws, hcons⟩ := List.exists_cons_of_ne_nil hwords
  exact ⟨w0, ws, hcons, by rw [← hcons, hbytes]⟩

/-- A window of an accepted strength has a legal capacity (R34). -/
theorem Fifo.wf_empty_of_strength {v : Byte} (h : v.toNat ≤ 31) : (Fifo.empty (v.toNat + 1)).Wf :=
  Fifo.wf_empty (Nat.succ_pos _) (Nat.succ_le_succ h)

/-- Every key of a compressed block lies in the key rows of R99. -/
theorem keyPack_age_le {f : Fifo} {w : Word} {i d : Nat} (hcap : 1 ≤ f.cap ∧ f.cap ≤ 32)
    (hfind : findBestMatch f w .age = (i, d)) : keyPack d i ≤ 0x9F := by
  have hbound := findBestMatch_age_bound w hcap
  rw [hfind] at hbound
  exact keyPack_le hbound.2 hbound.1

/-- Settles O36: it holds, as the compressed form is the key records of the later words, each searched in its window. -/
theorem compressEscapesUnlessShorter : Obligations.CompressEscapesUnlessShorter := by
  intro b c v s t hexec hok
  obtain ⟨haccepts, rfl⟩ := exec_blkCompress_ok hexec hok
  obtain ⟨w0, ws, hwords, hbytes⟩ := haccepts.exists_words
  refine ⟨w0, ws, hwords, hbytes, ?oneWord, ?words⟩
  case oneWord =>
    rintro rfl
    exact compressBlock_of_oneWord v hwords
  case words =>
    intro hws
    refine ⟨bodyRecords ((Fifo.empty (v.toNat + 1)).insert w0) ws, length_bodyRecords _ ws, ?records, ?form,
      compressBlock_of_words v hwords hws⟩
    case form => rw [compressedForm_eq, compressWords_eq_flatten]
    case records =>
      intro k w i d hw hfind
      have hcap := (Fifo.wf_empty_of_strength haccepts.strength).1
      rw [← Fifo.insertAll_cap _ (w0 :: ws.take k)] at hcap
      exact ⟨getElem?_bodyRecords hw hfind, keyPack_age_le hcap hfind⟩

end Sys2Proof.Machine
end

section
/-! PROOFS. The round trip of a block (R267). The decompressor's window begins as the compressor's, and one key record takes both
to the same window: its search names a slot whose word the payload turns back into the word that was searched. -/

namespace Sys2Proof.Machine

/-- The search of a non-empty window in `AGE` order names a word within the difference it gives, its starting pair included: slot 0
is valid, and every difference is at most 4. -/
theorem findBestMatch_age_read {f : Fifo} (w : Word) (h : f.count ≠ 0) :
    ∃ e, f.read (findBestMatch f w .age).1 = some e ∧ classify (w ^^^ e) ≤ (findBestMatch f w .age).2 := by
  obtain ⟨heq, -⟩ | ⟨⟨_, e, -, he, hd, -⟩, -⟩ := findBestMatch_cases f w .age
  · obtain ⟨e, he⟩ := Fifo.exists_read_zero h
    rw [heq]
    exact ⟨e, he, classify_le _⟩
  · exact ⟨e, he, hd.le⟩

/-- A key record whose slot holds a word within its difference rebuilds its word (R160). -/
theorem bulkRecord_keyRecord {f : Fifo} {w e : Word} {i d : Nat} (rest out : List Byte) (hi : i < 32) (hd : d ≤ 4)
    (he : f.read i = some e) (hclass : classify (w ^^^ e) ≤ d) :
    bulkRecord (keyPack d i) { win := f, input := keyRecord i d w ++ rest, out := out }
      = .ok { win := f.insert w, input := rest, out := out ++ leBytes w 4 } := by
  have htag : tagOf (keyPack d i) = d := tagOf_keyPack ⟨d, by omega⟩ (BitVec.ofFin ⟨i, hi⟩)
  have hlow : (low5 (keyPack d i)).toNat = i := congrArg BitVec.toNat (low5_keyPack ⟨d, by omega⟩ (BitVec.ofFin ⟨i, hi⟩))
  have htake : ((keyRecord i d w ++ rest).drop 1).take d = payload w d := by
    simp [keyRecord]
  have hdrop : (keyRecord i d w ++ rest).drop (1 + d) = rest :=
    List.drop_left' (by rw [keyRecord_length, Nat.add_comm])
  have hlength : ¬ (keyRecord i d w ++ rest).length < 1 + d := by
    rw [List.length_append, keyRecord_length]
    omega
  rw [bulkRecord_eq, htag, if_neg (by omega)]
  simp only [bulkKey, hlow, he, if_neg hlength, htake, hdrop, rebuildOfPayload w e d hclass hd]

theorem Fifo.count_insert_ne_zero {f : Fifo} (w : Word) (hwf : f.Wf) : (f.insert w).count ≠ 0 := by
  obtain ⟨⟨hpos, -⟩, hle, -, -⟩ := hwf
  rw [Fifo.insert_count w hle]
  omega

theorem bulkBody_cons {n : Nat} {k : Byte} {r : List Byte} {sc sc' : Scratch} (hin : sc.input = k :: r)
    (h : bulkRecord k sc = .ok sc') : bulkBody (n + 1) sc = bulkBody n sc' := by
  simp only [bulkBody, hin, h]

/-- From a legal window with words, the body records of a compressed block append its words. -/
theorem bulkBody_compressWords {f : Fifo} {ws : List Word} {n : Nat} (out : List Byte) (hwf : f.Wf)
    (hcount : f.count ≠ 0) (hn : (compressWords f ws).length ≤ n) :
    bulkBody n { win := f, input := compressWords f ws, out := out }
      = .ok { win := f.insertAll ws, input := [], out := out ++ ws.flatMap (leBytes · 4) } := by
  induction ws generalizing f n out with
  | nil =>
    rw [List.flatMap_nil, List.append_nil]
    cases n <;> rfl
  | cons w ws ih =>
    obtain ⟨e, he, hclass⟩ := findBestMatch_age_read w hcount
    obtain ⟨hi, hd⟩ := findBestMatch_age_bound w hwf.1
    rw [compressWords, List.length_append, keyRecord_length] at hn
    obtain ⟨n, rfl⟩ := Nat.exists_eq_succ_of_ne_zero (show n ≠ 0 by omega)
    have hrecord := bulkRecord_keyRecord (compressWords (f.insert w) ws) out hi hd he hclass
    calc bulkBody (n + 1) { win := f, input := compressWords f (w :: ws), out := out }
      _ = bulkBody n { win := f.insert w, input := compressWords (f.insert w) ws, out := out ++ leBytes w 4 } :=
        bulkBody_cons rfl hrecord
      _ = .ok { win := (f.insert w).insertAll ws, input := []
                out := out ++ leBytes w 4 ++ ws.flatMap (leBytes · 4) } :=
        ih (out ++ leBytes w 4) (Fifo.wf_insert w hwf) (Fifo.count_insert_ne_zero w hwf) (by omega)
      _ = .ok { win := f.insertAll (w :: ws), input := [], out := out ++ (w :: ws).flatMap (leBytes · 4) } := by
        rw [List.flatMap_cons, List.append_assoc]
        rfl

theorem decompressBlock_compressedForm {v : Byte} (w0 : Word) (ws : List Word) (h : v.toNat ≤ 31) :
    decompressBlock (compressedForm v w0 ws) = .ok ((w0 :: ws).flatMap (leBytes · 4)) := by
  have hwf := Fifo.wf_empty_of_strength h
  have hbody := bulkBody_compressWords (leBytes w0 4) (Fifo.wf_insert w0 hwf) (Fifo.count_insert_ne_zero w0 hwf)
    (le_refl (compressWords _ ws).length)
  have hcomp : v < 0xE0 := by bv_omega
  rw [compressedForm_eq, decompressBlock_of_word _ _ hcomp, toNat_low5_of_le h, Scratch.seeded, hbody]
  rfl

/-- An accepted block is returned as its escape block or as a compressed form shorter than it (R253, R256). -/
theorem State.AcceptsBlock.compressBlock_cases {s : State} {b : List Byte} {v : Byte} (h : s.AcceptsBlock b v) :
    compressBlock b v = (0xE0 ||| v) :: b
      ∨ ∃ (w0 : Word) (ws : List Word), b = (w0 :: ws).flatMap (leBytes · 4)
          ∧ compressBlock b v = compressedForm v w0 ws ∧ (compressedForm v w0 ws).length < b.length := by
  obtain ⟨w0, ws, hwords, hbytes⟩ := h.exists_words
  by_cases hws : ws = []
  · exact .inl (compressBlock_of_oneWord v (hws ▸ hwords))
  · have hrule := compressBlock_of_words v hwords hws
    split at hrule
    case isTrue hshorter => exact .inr ⟨w0, ws, hbytes, hrule, hshorter⟩
    case isFalse => exact .inl hrule

theorem escapeHeader_le (v : Byte) : 0xE0 ≤ 0xE0 ||| v := by
  rw [BitVec.le_def, BitVec.toNat_or]
  exact Nat.left_le_or

/-- What BLK_COMPRESS returns for an accepted block decompresses to the block: the escape block by its header, the compressed form
record by record. -/
theorem decompressBlock_compressBlock {b : List Byte} {v : Byte} {s : State} (h : s.AcceptsBlock b v) :
    decompressBlock (compressBlock b v) = .ok b := by
  obtain heq | ⟨w0, ws, hbytes, heq, -⟩ := h.compressBlock_cases
  · rw [heq, decompressBlock_of_escape b (escapeHeader_le v)]
  · rw [heq, decompressBlock_compressedForm w0 ws h.strength, ← hbytes]

theorem compressBlock_length_le {b : List Byte} {v : Byte} {s : State} (h : s.AcceptsBlock b v) :
    (compressBlock b v).length ≤ b.length + 1 := by
  obtain heq | ⟨w0, ws, -, heq, hshorter⟩ := h.compressBlock_cases
  · rw [heq, List.length_cons]
  · rw [heq]
    exact hshorter.le.trans (Nat.le_succ _)

theorem decompressBlock_ne_nil {b c : List Byte} (h : decompressBlock b = .ok c) : b ≠ [] := by
  rintro rfl
  cases h

/-- Settles O44: it holds, as the result fits the limit of BLK_DECOMPRESS, one above that of BLK_COMPRESS. -/
theorem blockRoundTrip : Obligations.BlockRoundTrip := by
  intro b c v s t hexec hok
  obtain ⟨haccepts, rfl⟩ := exec_blkCompress_ok hexec hok
  have hblock := decompressBlock_compressBlock haccepts
  have hmax (m : Nat) (hm : t.limits.blkMax = some m) : (compressBlock b v).length ≤ m + 1 := by
    rw [exec_keeps_limits hexec] at hm
    exact (compressBlock_length_le haccepts).trans (Nat.succ_le_succ (haccepts.withinMax m hm))
  have hdecompress := exec_blkDecompress_of_within (decompressBlock_ne_nil hblock) hmax
  rw [hblock] at hdecompress
  exact ⟨_, hdecompress, rfl, t.sameButReply_withReply _⟩

end Sys2Proof.Machine
end

section
/-! PROOFS. Error entry (R302): a command either answers OK, or it has written the reply alone and returns no result. Each channel's
cases say which; the bulk records, whose errors drop the scratch as well, are left out. -/

namespace Sys2Proof.Machine

/-- `t` answers OK, or it is what `raise` makes of `s`: the same state with an error status and no result (R12, R302). -/
def State.OkOrRaised (s t : State) : Prop := (∃ v, t.answered .ok v) ∨ ∃ e, t = s.withReply ⟨e, .nothing⟩

theorem State.okOrRaised_withReply (s : State) {r : Reply} (h : r.status ≠ .ok → r.result = .nothing) :
    s.OkOrRaised (s.withReply r) := by
  obtain ⟨e, v⟩ := r
  by_cases he : e = .ok
  · subst he
    exact .inl ⟨v, rfl⟩
  · obtain rfl : v = .nothing := h he
    exact .inr ⟨e, rfl⟩

/-- What an error status leaves of a state that answers OK or was raised. -/
theorem State.OkOrRaised.of_error {s t : State} {e : Status} {r : Result} (h : s.OkOrRaised t) (hreply : t.answered e r)
    (herror : e ≠ .ok) : t.sameButReply s ∧ r = .nothing := by
  obtain ⟨v, hok⟩ | ⟨e', rfl⟩ := h
  · cases hok.symm.trans hreply
    exact absurd rfl herror
  · cases hreply
    exact ⟨s.sameButReply_withReply _, rfl⟩

theorem exec_enc_okOrRaised {i : Instr} {s t : State} (hi : i.isEnc = true) (h : exec i s = .next t) :
    s.OkOrRaised t := by
  obtain ⟨r, rfl, -, hresult⟩ | ⟨w, -, -, rfl⟩ | ⟨v, -, -, rfl⟩ | ⟨-, rfl⟩ | ⟨-, rfl⟩ := exec_enc_cases hi h
  case inl => exact s.okOrRaised_withReply hresult
  -- Every case that writes the encoder answers OK.
  all_goals exact .inl ⟨_, rfl⟩

theorem exec_dec_okOrRaised {i : Instr} {s t : State} (hi : i.isDec = true) (h : exec i s = .next t) :
    s.OkOrRaised t := by
  obtain ⟨r, rfl, -, hresult⟩ | ⟨n, w, rfl, -⟩ | ⟨v, w, read, rest, -, -, rfl⟩ | ⟨b, -, -, rfl⟩ | ⟨-, rfl⟩ | ⟨-, rfl⟩ :=
    exec_dec_cases hi h
  case inl => exact s.okOrRaised_withReply hresult
  -- Every case that writes the decoder answers OK.
  all_goals exact .inl ⟨_, rfl⟩

theorem exec_bulk_okOrRaised {i : Instr} {s t : State} (hi : i.isBulkCommand = true) (h : exec i s = .next t) :
    s.OkOrRaised t := by
  obtain ⟨r, rfl, -, hresult⟩ := exec_bulk_cases hi h
  exact s.okOrRaised_withReply hresult

theorem exec_okOrRaised {i : Instr} {s t : State} (hi : i.isBulkRecord = false) (h : exec i s = .next t) :
    s.OkOrRaised t := by
  obtain henc | hdec | hbulk | hrecord := i.isEnc_or_isDec_or_bulk
  · exact exec_enc_okOrRaised henc h
  · exact exec_dec_okOrRaised hdec h
  · exact exec_bulk_okOrRaised hbulk h
  · exact absurd (hi.symm.trans hrecord) Bool.false_ne_true

/-- Settles O50: it holds, as every case that writes more than the reply answers OK. -/
theorem errorsChangeNoState : Obligations.ErrorsChangeNoState := fun _ _ _ _ _ hi hexec hreply herror =>
  (exec_okOrRaised hi hexec).of_error hreply herror

end Sys2Proof.Machine
end

section
/-! PROOFS. The values after reset (R340). Slots and `ENC_OUT` bytes hold no value as the two windows and the written bytes are
empty (R46); every other register is written out by reset. -/

namespace Sys2Proof.Machine

@[simp] theorem Memory.read_nil (x : Nat) : Memory.read [] x = none := rfl

/-- Settles O47: it holds, as a read of an empty window or of an empty `ENC_OUT` finds nothing. -/
theorem resetValues : Obligations.ResetValues := by
  rintro c _ rfl
  refine ⟨rfl, rfl, rfl, rfl, rfl, ?encOut, rfl, rfl, rfl, rfl, rfl, ?slots, rfl, rfl, rfl⟩
  case encOut => exact Memory.read_nil
  case slots => exact fun i => ⟨Fifo.read_empty _ i, Fifo.read_empty _ i⟩

end Sys2Proof.Machine
end

section
/-! PROOFS. A record's lead byte (R93, R98, R99). Bits 7:5 decide the row in each of the three record contexts, so a byte that
meets a row's match and mask decodes to that row, and a well-formed record reads back from its lead byte. -/

namespace Sys2Proof

open Sys2Proof.Machine

/-- Meeting the match `d << 5` under the mask 0xE0 is having `d` in bits 7:5. -/
theorem tagOf_of_holds {m : String} {d : Fin 8} {b : Byte} (h : (Row.mk m (keyPack d 0) 0xE0).holds b = true) :
    tagOf b = d := by
  have hmask : ∀ (d : Fin 8) (b : Byte), b &&& 0xE0 = keyPack d 0 → tagOf b = d := by decide
  exact hmask d b (eq_of_beq h)

/-- Meeting the match `d << 5` under the mask 0xC0, which leaves bit 5 out, is having `d` or `d + 1` in bits 7:5. -/
theorem tagOf_of_holds_pair {m : String} {d : Fin 4} {b : Byte}
    (h : (Row.mk m (keyPack (2 * d) 0) 0xC0).holds b = true) : tagOf b = 2 * d ∨ tagOf b = 2 * d + 1 := by
  have hmask : ∀ (d : Fin 4) (b : Byte), b &&& 0xC0 = keyPack (2 * d) 0 → tagOf b = 2 * d ∨ tagOf b = 2 * d + 1 := by
    decide
  exact hmask d b (eq_of_beq h)

theorem decodeStream_of_holds {j : Instr} {b : Byte} (hctx : j.context = .stream) (h : j.row.holds b = true) :
    (decodeStream b).row = j.row := by
  cases j with
  | keyD0 => rw [decodeStream, tagOf_of_holds (d := 0) h]; rfl
  | keyD1 => rw [decodeStream, tagOf_of_holds (d := 1) h]; rfl
  | keyD2 => rw [decodeStream, tagOf_of_holds (d := 2) h]; rfl
  | keyD3 => rw [decodeStream, tagOf_of_holds (d := 3) h]; rfl
  | keyD4 => rw [decodeStream, tagOf_of_holds (d := 4) h]; rfl
  | rsvdKeyD5 => rw [decodeStream, tagOf_of_holds (d := 5) h]; rfl
  | resetRec => rw [decodeStream, tagOf_of_holds (d := 6) h]; rfl
  | escInStream => rw [decodeStream, tagOf_of_holds (d := 7) h]; rfl
  | _ => cases hctx

theorem decodeBulkHeader_of_holds {j : Instr} {b : Byte} (hctx : j.context = .bulkHeader) (h : j.row.holds b = true) :
    (decodeBulkHeader b).row = j.row := by
  cases j with
  | blkHdr => rw [decodeBulkHeader, tagOf_of_holds (d := 0) h]; rfl
  | blkHdrUnproduced20To3F => rw [decodeBulkHeader, tagOf_of_holds (d := 1) h]; rfl
  | blkHdrUnproduced40To7F => obtain ht | ht := tagOf_of_holds_pair (d := 1) h <;> rw [decodeBulkHeader, ht] <;> rfl
  | blkHdrUnproduced80ToBF => obtain ht | ht := tagOf_of_holds_pair (d := 2) h <;> rw [decodeBulkHeader, ht] <;> rfl
  | blkHdrUnproducedC0ToDF => rw [decodeBulkHeader, tagOf_of_holds (d := 6) h]; rfl
  | blkEsc => rw [decodeBulkHeader, tagOf_of_holds (d := 7) h]; rfl
  | _ => cases hctx

theorem decodeBulkBody_of_holds {j : Instr} {b : Byte} (hctx : j.context = .bulkBody) (h : j.row.holds b = true) :
    (decodeBulkBody b).row = j.row := by
  cases j with
  | blkKeyD0 => rw [decodeBulkBody, tagOf_of_holds (d := 0) h]; rfl
  | blkKeyD1 => rw [decodeBulkBody, tagOf_of_holds (d := 1) h]; rfl
  | blkKeyD2 => rw [decodeBulkBody, tagOf_of_holds (d := 2) h]; rfl
  | blkKeyD3 => rw [decodeBulkBody, tagOf_of_holds (d := 3) h]; rfl
  | blkKeyD4 => rw [decodeBulkBody, tagOf_of_holds (d := 4) h]; rfl
  | blkRsvdKeyD5 => rw [decodeBulkBody, tagOf_of_holds (d := 5) h]; rfl
  | blkRsvdKeyD6D7 => obtain ht | ht := tagOf_of_holds_pair (d := 3) h <;> rw [decodeBulkBody, ht] <;> rfl
  | _ => cases hctx

/-- `i` is a well-formed record of the context whose lead byte is `b`, and `b` meets the match and mask of its row. -/
abbrev Instr.SpelledBy (i : Instr) (ctx : Context) (b : Byte) : Prop :=
  i.context = ctx ∧ i.wf = true ∧ encode i = [b] ∧ i.row.holds b = true

theorem decodeStream_spelledBy (b : Byte) : (decodeStream b).SpelledBy .stream b := by
  revert b; decide

theorem decodeBulkHeader_spelledBy (b : Byte) : (decodeBulkHeader b).SpelledBy .bulkHeader b := by
  revert b; decide

theorem decodeBulkBody_spelledBy (b : Byte) : (decodeBulkBody b).SpelledBy .bulkBody b := by
  revert b; decide

/-- Settles O2: it holds, as bits 7:5 of the byte decide the row in each record context. -/
theorem recordByteSpellsOneRow : Obligations.RecordByteSpellsOneRow := by
  intro ctx b rest hctx
  cases ctx with
  | stream =>
    obtain ⟨hcontext, hwf, hencode, hholds⟩ := decodeStream_spelledBy b
    exact ⟨_, rfl, hcontext, hwf, hencode, hholds, fun _ hj h => (decodeStream_of_holds hj h).symm⟩
  | bulkHeader =>
    obtain ⟨hcontext, hwf, hencode, hholds⟩ := decodeBulkHeader_spelledBy b
    exact ⟨_, rfl, hcontext, hwf, hencode, hholds, fun _ hj h => (decodeBulkHeader_of_holds hj h).symm⟩
  | bulkBody =>
    obtain ⟨hcontext, hwf, hencode, hholds⟩ := decodeBulkBody_spelledBy b
    exact ⟨_, rfl, hcontext, hwf, hencode, hholds, fun _ hj h => (decodeBulkBody_of_holds hj h).symm⟩
  | command => exact absurd rfl hctx

/-- Settles O4: it holds, by running the decoder on the six byte strings. -/
theorem sampleWordsDecode : Obligations.SampleWordsDecode := by
  unfold Obligations.SampleWordsDecode
  decide

end Sys2Proof
end

section
/-! PROOFS. The decoder reads back what the encoder writes: a record from its lead byte, a command from its code (R103) and its
operands as they lie at the port (log 2). -/

namespace Sys2Proof

open Sys2Proof.Machine

theorem decodeStream_encode {i : Instr} (hctx : i.context = .stream) (hwf : i.wf = true) :
    ∃ b, encode i = [b] ∧ decodeStream b = i := by
  cases i with
  | keyD0 idx => exact ⟨_, rfl, decodeStream_keyPack 0 idx⟩
  | keyD1 idx => exact ⟨_, rfl, decodeStream_keyPack 1 idx⟩
  | keyD2 idx => exact ⟨_, rfl, decodeStream_keyPack 2 idx⟩
  | keyD3 idx => exact ⟨_, rfl, decodeStream_keyPack 3 idx⟩
  | keyD4 idx => exact ⟨_, rfl, decodeStream_keyPack 4 idx⟩
  | rsvdKeyD5 b => exact ⟨b, rfl, by rw [decodeStream, tagOf_of_holds (d := 5) hwf]; rfl⟩
  | resetRec v => exact ⟨_, rfl, decodeStream_resetLead v⟩
  | escInStream b => exact ⟨b, rfl, by rw [decodeStream, tagOf_of_holds (d := 7) hwf]; rfl⟩
  | _ => cases hctx

theorem decodeBulkHeader_strength (v : BitVec 5) : decodeBulkHeader (v.setWidth 8) = .blkHdr v := by
  have hclass : tagOf (keyPack 0 v.toNat) = 0 := tagOf_keyPack 0 v
  have hstrength : low5 (keyPack 0 v.toNat) = v := low5_keyPack 0 v
  simp only [headerLead_eq_keyPack, decodeBulkHeader, hclass, hstrength]

theorem decodeBulkHeader_encode {i : Instr} (hctx : i.context = .bulkHeader) (hwf : i.wf = true) :
    ∃ b, encode i = [b] ∧ decodeBulkHeader b = i := by
  cases i with
  | blkHdr v => exact ⟨_, rfl, decodeBulkHeader_strength v⟩
  | blkHdrUnproduced20To3F h => exact ⟨h, rfl, by rw [decodeBulkHeader, tagOf_of_holds (d := 1) hwf]; rfl⟩
  | blkHdrUnproduced40To7F h =>
    refine ⟨h, rfl, ?_⟩
    obtain ht | ht := tagOf_of_holds_pair (d := 1) hwf <;> rw [decodeBulkHeader, ht] <;> rfl
  | blkHdrUnproduced80ToBF h =>
    refine ⟨h, rfl, ?_⟩
    obtain ht | ht := tagOf_of_holds_pair (d := 2) hwf <;> rw [decodeBulkHeader, ht] <;> rfl
  | blkHdrUnproducedC0ToDF h => exact ⟨h, rfl, by rw [decodeBulkHeader, tagOf_of_holds (d := 6) hwf]; rfl⟩
  | blkEsc h => exact ⟨h, rfl, by rw [decodeBulkHeader, tagOf_of_holds (d := 7) hwf]; rfl⟩
  | _ => cases hctx

theorem decodeBulkBody_keyPack (d : Fin 5) (i : BitVec 5) : decodeBulkBody (keyPack d i.toNat) = bulkKeyRow d i := by
  have hclass : tagOf (keyPack d i.toNat) = d := tagOf_keyPack (d.castLE (by decide)) i
  have hindex : low5 (keyPack d i.toNat) = i := low5_keyPack (d.castLE (by decide)) i
  rw [decodeBulkBody, hclass, hindex]
  match d with
  | 0 | 1 | 2 | 3 | 4 => rfl

theorem decodeBulkBody_encode {i : Instr} (hctx : i.context = .bulkBody) (hwf : i.wf = true) :
    ∃ b, encode i = [b] ∧ decodeBulkBody b = i := by
  cases i with
  | blkKeyD0 idx => exact ⟨_, rfl, decodeBulkBody_keyPack 0 idx⟩
  | blkKeyD1 idx => exact ⟨_, rfl, decodeBulkBody_keyPack 1 idx⟩
  | blkKeyD2 idx => exact ⟨_, rfl, decodeBulkBody_keyPack 2 idx⟩
  | blkKeyD3 idx => exact ⟨_, rfl, decodeBulkBody_keyPack 3 idx⟩
  | blkKeyD4 idx => exact ⟨_, rfl, decodeBulkBody_keyPack 4 idx⟩
  | blkRsvdKeyD5 b => exact ⟨b, rfl, by rw [decodeBulkBody, tagOf_of_holds (d := 5) hwf]; rfl⟩
  | blkRsvdKeyD6D7 b =>
    refine ⟨b, rfl, ?_⟩
    obtain ht | ht := tagOf_of_holds_pair (d := 3) hwf <;> rw [decodeBulkBody, ht] <;> rfl
  | _ => cases hctx

theorem decodeCommand_of_operands {c : Byte} {r rest : List Byte} {i : Instr}
    (h : decodeOperands c.toNat r = some (some (i, rest))) : decodeCommand (c :: r) = .ok i rest := by
  simp only [decodeCommand, h]

theorem decodeCommand_encode {i : Instr} (hctx : i.context = .command) (rest : List Byte) :
    decodeCommand (encode i ++ rest) = .ok i rest := by
  cases i with
  | encWord w => exact decodeCommand_of_operands (congrArg (some ∘ Option.map _) (readWord_leBytes w rest))
  | encSetStrength v => rfl
  | encReset => rfl
  | encEmptyOutput => rfl
  | encReadOut off len => exact decodeCommand_of_operands (by simp [decodeOperands, List.append_assoc])
  | encQuery => rfl
  | decAugment b => exact decodeCommand_of_operands (congrArg (some ∘ Option.map _) (readSeq_putSeq b rest))
  | decWord => rfl
  | decReset => rfl
  | decDiscard => rfl
  | decQuery => rfl
  | blkCompress b v => exact decodeCommand_of_operands (by simp [decodeOperands, readByte])
  | blkDecompress b => exact decodeCommand_of_operands (congrArg (some ∘ Option.map _) (readSeq_putSeq b rest))
  | _ => cases hctx

/-- Settles O1: it holds, context by context. -/
theorem decodeOfEncode : Obligations.DecodeOfEncode := by
  intro i rest hwf
  cases hctx : i.context with
  | stream =>
    obtain ⟨b, hencode, hdecode⟩ := decodeStream_encode hctx hwf
    rw [hencode]
    exact congrArg (Decoded.ok · rest) hdecode
  | bulkHeader =>
    obtain ⟨b, hencode, hdecode⟩ := decodeBulkHeader_encode hctx hwf
    rw [hencode]
    exact congrArg (Decoded.ok · rest) hdecode
  | bulkBody =>
    obtain ⟨b, hencode, hdecode⟩ := decodeBulkBody_encode hctx hwf
    rw [hencode]
    exact congrArg (Decoded.ok · rest) hdecode
  | command => exact decodeCommand_encode hctx rest

end Sys2Proof
end

section
/-! PROOFS. What a decoded command was spelled with: every operand reader drops what it read from the front of the bytes, so the
code of the row and the bytes not read are what is left of the input (R103). -/

namespace Sys2Proof

/-- A reader of one operand answers the bytes after it. -/
def DropsFront {α : Type} (read : List Byte → Option (α × List Byte)) : Prop :=
  ∀ r x t, read r = some (x, t) → t <:+ r

theorem readByte_dropsFront : DropsFront readByte := by
  rintro (_ | ⟨b, r⟩) x t h <;> cases h
  exact List.suffix_cons b r

theorem readWord_dropsFront : DropsFront readWord := by
  intro r x t h
  unfold readWord at h
  split at h <;> cases h
  case h_1 b0 b1 b2 b3 => exact List.suffix_append [b0, b1, b2, b3] t

theorem readNat_dropsFront : DropsFront readNat := by
  intro r
  induction r with
  | nil => exact nofun
  | cons b r ih =>
    intro x t h
    rw [readNat] at h
    split at h
    · cases h
      exact List.suffix_cons b r
    · obtain ⟨⟨n, t'⟩, hread, heq⟩ := Option.map_eq_some_iff.1 h
      cases heq
      exact (ih n t hread).trans (List.suffix_cons b r)

theorem readSeq_dropsFront : DropsFront readSeq := by
  intro r x t h
  obtain ⟨⟨n, t'⟩, hread, htake⟩ := Option.bind_eq_some_iff.1 h
  dsimp only at htake
  split at htake <;> cases htake
  exact (List.drop_suffix _ _).trans (readNat_dropsFront r _ _ hread)

theorem DropsFront.of_map {α : Type} {read : List Byte → Option (α × List Byte)} {f : α → Instr} {r rest : List Byte}
    {i : Instr} (hread : DropsFront read)
    (h : some ((read r).map fun (x, t) => (f x, t)) = some (some (i, rest))) : ∃ x, i = f x ∧ rest <:+ r := by
  obtain ⟨⟨x, t⟩, hx, heq⟩ := Option.map_eq_some_iff.1 (Option.some.inj h)
  cases heq
  exact ⟨x, rfl, hread r x rest hx⟩

theorem DropsFront.of_bind_map {α β : Type} {read : List Byte → Option (α × List Byte)}
    {read' : List Byte → Option (β × List Byte)} {f : α → β → Instr} {r rest : List Byte} {i : Instr}
    (hread : DropsFront read) (hread' : DropsFront read')
    (h : some ((read r).bind fun (x, t) => (read' t).map fun (y, u) => (f x y, u)) = some (some (i, rest))) :
    ∃ x y, i = f x y ∧ rest <:+ r := by
  obtain ⟨⟨x, t⟩, hx, hmap⟩ := Option.bind_eq_some_iff.1 (Option.some.inj h)
  obtain ⟨y, hi, hrest⟩ := hread'.of_map (congrArg some hmap)
  exact ⟨x, y, hi, hrest.trans (hread r x t hx)⟩

/-- What a code and its operand bytes decode to: a well-formed command whose row has that code. -/
theorem decodeOperands_some {code : Nat} {r rest : List Byte} {i : Instr}
    (h : decodeOperands code r = some (some (i, rest))) :
    i.context = .command ∧ i.wf = true ∧ i.row.pattern.toNat = code ∧ rest <:+ r := by
  unfold decodeOperands at h
  split at h
  case h_1 => -- ENC_WORD
    obtain ⟨w, rfl, hrest⟩ := readWord_dropsFront.of_map h
    exact ⟨rfl, rfl, rfl, hrest⟩
  case h_2 => -- ENC_SET_STRENGTH
    obtain ⟨v, rfl, hrest⟩ := readByte_dropsFront.of_map h
    exact ⟨rfl, rfl, rfl, hrest⟩
  case h_5 => -- ENC_READ_OUT
    obtain ⟨off, len, rfl, hrest⟩ := readNat_dropsFront.of_bind_map readNat_dropsFront h
    exact ⟨rfl, rfl, rfl, hrest⟩
  case h_7 => -- DEC_AUGMENT
    obtain ⟨b, rfl, hrest⟩ := readSeq_dropsFront.of_map h
    exact ⟨rfl, rfl, rfl, hrest⟩
  case h_12 => -- BLK_COMPRESS
    obtain ⟨v, b, rfl, hrest⟩ := readByte_dropsFront.of_bind_map readSeq_dropsFront (f := fun v b => .blkCompress b v) h
    exact ⟨rfl, rfl, rfl, hrest⟩
  case h_13 => -- BLK_DECOMPRESS
    obtain ⟨b, rfl, hrest⟩ := readSeq_dropsFront.of_map h
    exact ⟨rfl, rfl, rfl, hrest⟩
  case h_14 => cases h -- an unlisted code
  -- The commands without operands.
  all_goals
    cases h
    exact ⟨rfl, rfl, rfl, List.suffix_refl r⟩

theorem decodeCommand_ok {bs rest : List Byte} {i : Instr} (h : decodeCommand bs = .ok i rest) :
    ∃ c r, bs = c :: r ∧ decodeOperands c.toNat r = some (some (i, rest)) := by
  cases bs with
  | nil => cases h
  | cons c r =>
    refine ⟨c, r, rfl, ?_⟩
    rw [decodeCommand] at h
    split at h <;> cases h
    assumption

/-- Settles O3: it holds, as every operand reader answers the bytes it did not read. -/
theorem commandDecodesToItsCode : Obligations.CommandDecodesToItsCode := by
  intro bs rest i h
  obtain ⟨c, r, rfl, hoperands⟩ := decodeCommand_ok h
  obtain ⟨hctx, hwf, hcode, used, rfl⟩ := decodeOperands_some hoperands
  obtain rfl : i.row.pattern = c := BitVec.eq_of_toNat_eq hcode
  exact ⟨hctx, hwf, used, rfl⟩

namespace Machine

theorem fetch_of_decodeCommand {s : State} {i : Instr} {rest : List Byte}
    (h : decodeCommand s.port.pending = .ok i rest) : fetch s = .command i rest := by
  simp only [fetch, h]

theorem fetch_of_nil {s : State} (h : s.port.pending = []) : fetch s = .idle := by
  simp only [fetch, h, decodeCommand]

/-- Settles O5: it holds, by what stands at the port. -/
theorem stepRunsDecodedCommand : Obligations.StepRunsDecodedCommand :=
  fun _ => ⟨fun _ _ h => by simp only [step, fetch_of_decodeCommand h], fun h => by simp only [step, fetch_of_nil h]⟩

end Machine
end Sys2Proof
end

section
/-! PROOFS. The words of a window in `AGE` order (R33, R134). They are the slots rotated so that the oldest stands first, and an
insert appends the new word to them, in place of the oldest when the window is full (R131). -/

namespace Sys2Proof.Machine

/-- In a legal FIFO every slot `AGE` order visits is valid, at the place the rotation gives it. -/
theorem Fifo.read_age {f : Fifo} (hwf : f.Wf) {k : Nat} (hk : k < f.count) :
    f.read ((f.oldest + k) % f.cap) = (f.slots.rotate f.oldest)[k]? := by
  obtain ⟨-, hle, -, hzero⟩ := hwf
  have hindex : (f.oldest + k) % f.cap = (k + f.oldest) % f.slots.length := by
    by_cases hfull : f.count = f.cap
    · rw [← hfull, Nat.add_comm, Fifo.count]
    · have hroom : f.count < f.cap := by omega
      have hlen : k < f.slots.length := hk
      rw [hzero hroom, Nat.zero_add, Nat.add_zero, Nat.mod_eq_of_lt (hk.trans hroom), Nat.mod_eq_of_lt hlen]
  rw [hindex, List.getElem?_rotate hk, Fifo.read]

theorem filterMap_getElem?_range {α : Type} (l : List α) : (List.range l.length).filterMap (l[·]?) = l := by
  induction l with
  | nil => rfl
  | cons a l ih => simp [List.range_succ_eq_map, List.filterMap_map, ih]

theorem Fifo.byAge_eq_rotate {f : Fifo} (hwf : f.Wf) : f.byAge = f.slots.rotate f.oldest := by
  have hcount : f.count = (f.slots.rotate f.oldest).length := (List.length_rotate f.slots f.oldest).symm
  calc f.byAge
    _ = (List.range f.count).filterMap fun k => f.read ((f.oldest + k) % f.cap) := by
      rw [Fifo.byAge, Fifo.scanSlots, List.filterMap_map]
      rfl
    _ = (List.range f.count).filterMap fun k => (f.slots.rotate f.oldest)[k]? :=
      List.filterMap_congr fun k hk => Fifo.read_age hwf (List.mem_range.1 hk)
    _ = f.slots.rotate f.oldest := by rw [hcount, filterMap_getElem?_range]

theorem Fifo.length_byAge {f : Fifo} (hwf : f.Wf) : f.byAge.length = f.count := by
  rw [Fifo.byAge_eq_rotate hwf, List.length_rotate, Fifo.count]

theorem Fifo.byAge_insert_not_full {f : Fifo} (w : Word) (hwf : f.Wf) (h : f.count < f.cap) :
    (f.insert w).byAge = f.byAge ++ [w] := by
  obtain ⟨-, -, -, hzero⟩ := id hwf
  rw [Fifo.byAge_eq_rotate (Fifo.wf_insert w hwf), Fifo.byAge_eq_rotate hwf, Fifo.oldest_insert_not_full w hwf h,
    hzero h, List.rotate_zero, List.rotate_zero, Fifo.insert_not_full w h]

/-- Overwriting element `n` and moving the rotation past it drops that element from the front and appends the new one. -/
theorem rotate_set_succ {α : Type} {l : List α} {n : Nat} (a : α) (h : n < l.length) :
    (l.set n a).rotate ((n + 1) % l.length) = (l.rotate n).drop 1 ++ [a] := by
  have hset : l.set n a = (l.take n ++ [a]) ++ l.drop (n + 1) := by simp [List.set_eq_take_append_cons_drop, h]
  have hlen : (l.take n ++ [a]).length = n + 1 := by simp [h.le]
  calc (l.set n a).rotate ((n + 1) % l.length)
    _ = ((l.take n ++ [a]) ++ l.drop (n + 1)).rotate (l.take n ++ [a]).length := by
      rw [← List.length_set (i := n) (a := a), List.rotate_mod, hset, hlen]
    _ = l.drop (n + 1) ++ (l.take n ++ [a]) := List.rotate_append_length_eq _ _
    _ = (l.rotate n).drop 1 ++ [a] := by
      rw [List.rotate_eq_drop_append_take h.le, List.drop_append_of_le_length (by simp; omega), List.drop_drop,
        List.append_assoc]

theorem Fifo.byAge_insert_full {f : Fifo} (w : Word) (hwf : f.Wf) (h : f.count = f.cap) :
    (f.insert w).byAge = f.byAge.drop 1 ++ [w] := by
  obtain ⟨-, -, holdest, -⟩ := id hwf
  have hslots : f.slots.length = f.cap := h
  rw [Fifo.byAge_eq_rotate (Fifo.wf_insert w hwf), Fifo.byAge_eq_rotate hwf, Fifo.insert_full w h.not_lt,
    ← rotate_set_succ w (holdest.trans_eq hslots.symm), hslots]

theorem Fifo.byAge_insert {f : Fifo} (w : Word) (hwf : f.Wf) :
    (f.insert w).byAge = (if f.count < f.cap then f.byAge else f.byAge.drop 1) ++ [w] := by
  obtain ⟨-, hle, -, -⟩ := id hwf
  split
  case isTrue hroom => exact Fifo.byAge_insert_not_full w hwf hroom
  case isFalse hfull => exact Fifo.byAge_insert_full w hwf (by omega)

theorem Fifo.insertAll_append (f : Fifo) (ws : List Word) (w : Word) :
    f.insertAll (ws ++ [w]) = (f.insertAll ws).insert w := List.foldl_concat _ f w ws

theorem Fifo.wf_insertAll {f : Fifo} (ws : List Word) (hwf : f.Wf) : (f.insertAll ws).Wf := by
  induction ws generalizing f with
  | nil => exact hwf
  | cons w ws ih => exact ih (Fifo.wf_insert w hwf)

/-- Inserting words into an empty window of capacity `c` leaves the last `c` of them, oldest first. -/
theorem Fifo.byAge_insertAll_empty {c : Nat} (hpos : 1 ≤ c) (hle : c ≤ 32) (ws : List Word) :
    ((Fifo.empty c).insertAll ws).byAge = ws.drop (ws.length - c) := by
  induction ws using List.reverseRecOn with
  | nil => simp [Fifo.insertAll, Fifo.byAge, Fifo.scanSlots]
  | append_singleton ws w ih =>
    have hwf : ((Fifo.empty c).insertAll ws).Wf := Fifo.wf_insertAll ws (Fifo.wf_empty hpos hle)
    have hcap : ((Fifo.empty c).insertAll ws).cap = c := Fifo.insertAll_cap (Fifo.empty c) ws
    have hcount : ((Fifo.empty c).insertAll ws).count = ws.length - (ws.length - c) := by
      rw [← Fifo.length_byAge hwf, ih, List.length_drop]
    rw [Fifo.insertAll_append, Fifo.byAge_insert w hwf, hcap, hcount, ih, List.length_append, List.length_singleton,
      List.drop_append_of_le_length (by omega)]
    split
    case isTrue hroom => rw [show ws.length - c = ws.length + 1 - c by omega]
    case isFalse hfull => rw [List.drop_drop, show ws.length - c + 1 = ws.length + 1 - c by omega]

/-- Settles O34: it holds, the second clause by induction over the words inserted, the last one first. -/
theorem windowHoldsLastWordsInOrder : Obligations.WindowHoldsLastWordsInOrder :=
  ⟨fun _ w hwf => Fifo.byAge_insert w hwf, fun _ ws hpos hle => Fifo.byAge_insertAll_empty hpos hle ws⟩

end Sys2Proof.Machine
end

section
/-! PROOFS. A key record whose slot is valid and whose payload is there (R223, R259), in the stream and in a bulk body: the word is
rebuilt from the payload and the slot's word (R159) by the same operation. -/

namespace Sys2Proof.Machine

/-- The word of a key record at the head of `input`, whose slot holds `e`. -/
def keyWord (e : Word) (d : Nat) (input : List Byte) : Word := rebuild e d ((input.drop 1).take d)

theorem byteOf_keyWord_low (e : Word) {d j : Nat} {input : List Byte} (hd : d ≤ 4) (hlen : 1 + d ≤ input.length)
    (hj : j < d) : input[1 + j]? = some (byteOf (keyWord e d input) j) := by
  have hpayload : ((input.drop 1).take d).length = d := by simp; omega
  rw [keyWord, byteOf_rebuild e d _ hd hpayload j (hj.trans_le hd), if_pos hj, List.getElem?_take_of_lt hj,
    List.getElem?_drop, List.getElem?_eq_getElem (by omega), Option.getD_some]

theorem byteOf_keyWord_high (e : Word) {d j : Nat} {input : List Byte} (hd : d ≤ 4) (hlen : 1 + d ≤ input.length)
    (hj : d ≤ j) (hj4 : j < 4) : byteOf (keyWord e d input) j = byteOf e j := by
  have hpayload : ((input.drop 1).take d).length = d := by simp; omega
  rw [keyWord, byteOf_rebuild e d _ hd hpayload j hj4, if_neg hj.not_gt]

theorem exec_streamKeyRow_of_record {d : Fin 5} {i : BitVec 5} {e : Word} {s : State}
    (hread : s.dec.win.read i.toNat = some e) (hlen : 1 + d.val ≤ s.dec.input.length) :
    exec (streamKeyRow d i) s
      = .next ((s.withDec { s.dec.inConsume (1 + d) with win := s.dec.win.insert (keyWord e d s.dec.input) }).withReply
          ⟨.ok, .word (keyWord e d s.dec.input)⟩) := by
  simp only [exec_streamKeyRow, streamKey, hread, if_neg hlen.not_gt, complete_eq, keyWord]

/-- Settles O20: it holds, as DEC_WORD runs the row of the key byte, and the rebuilt word is read byte by byte. -/
theorem keyRecordRebuildsWord : Obligations.KeyRecordRebuildsWord := by
  intro d i e s hlead hread hlen
  have hd : d.val ≤ 4 := Nat.le_of_lt_succ d.isLt
  have hexec := exec_streamKeyRow_of_record hread hlen
  exact ⟨_, _, hexec, (exec_decWord_of_row hlead (decodeStream_keyPack d i)).trans hexec, rfl,
    fun _ => byteOf_keyWord_low e hd hlen, fun _ => byteOf_keyWord_high e hd hlen, rfl, rfl, rfl, rfl, rfl, rfl, rfl⟩

theorem onScratch_of_ok {f : Scratch → Except Status Scratch} {s : State} {sc : Scratch} (h : f s.blk = .ok sc) :
    onScratch f s = .next (s.withBlk sc) := by
  simp only [onScratch, h]

theorem bulkKey_of_record {d : Nat} {i : BitVec 5} {e : Word} {sc : Scratch} (hread : sc.win.read i.toNat = some e)
    (hlen : 1 + d ≤ sc.input.length) :
    bulkKey d i sc = .ok { win := sc.win.insert (keyWord e d sc.input), input := sc.input.drop (1 + d)
                           out := sc.out ++ leBytes (keyWord e d sc.input) 4 } := by
  simp only [bulkKey, hread, if_neg hlen.not_gt, keyWord]

/-- Settles O41: it holds, as the row appends and inserts the rebuilt word, which is read byte by byte. -/
theorem bodyKeyRebuildsWord : Obligations.BodyKeyRebuildsWord := by
  intro d i e s hread hlen
  have hd : d.val ≤ 4 := Nat.le_of_lt_succ d.isLt
  have hexec := (exec_bulkKeyRow d i s).trans (onScratch_of_ok (bulkKey_of_record hread hlen))
  exact ⟨_, _, hexec, fun _ => byteOf_keyWord_low e hd hlen, fun _ => byteOf_keyWord_high e hd hlen, rfl, rfl, rfl,
    ⟨rfl, rfl, rfl, rfl⟩, rfl⟩

end Sys2Proof.Machine
end

section
/-! PROOFS. The other bulk rows on the scratch (R260 to R264): a header row seeds the scratch, and a row that raises a status ends
the command with it, the scratch dropped (R43, R302). -/

namespace Sys2Proof.Machine

/-- `t` is `s` after a bulk row ended its command with the reply `r`: the scratch is dropped and nothing else changes. -/
abbrev State.BlockEnded (s : State) (e : Status) (r : Result) (t : State) : Prop :=
  t.answered e r ∧ t.blk = Scratch.idle ∧ t.sameOutsideBlk s

theorem State.blockEnded_withReply (s : State) (e : Status) (r : Result) :
    s.BlockEnded e r ((s.withBlk Scratch.idle).withReply ⟨e, r⟩) :=
  ⟨rfl, rfl, rfl, rfl, rfl, rfl⟩

theorem onScratch_of_error {f : Scratch → Except Status Scratch} {s : State} {e : Status} (h : f s.blk = .error e) :
    onScratch f s = .next ((s.withBlk Scratch.idle).withReply ⟨e, .nothing⟩) := by
  simp only [onScratch, h, raise_eq]

theorem bulkKey_of_badIndex (d : Nat) {i : BitVec 5} {sc : Scratch} (h : sc.win.count ≤ i.toNat) :
    bulkKey d i sc = .error .invalidBackReference := by
  simp only [bulkKey, (Fifo.read_eq_none_iff sc.win i.toNat).2 h]

theorem bulkKey_of_short {d : Nat} {i : BitVec 5} {sc : Scratch} (hi : i.toNat < sc.win.count)
    (hshort : sc.input.length < 1 + d) : bulkKey d i sc = .error .malformedBoundary := by
  obtain ⟨e, hread⟩ := Option.isSome_iff_exists.1 ((Fifo.read_isSome_iff sc.win i.toNat).2 hi)
  simp only [bulkKey, hread, if_pos hshort]

/-- Settles O42: it holds, as the index is checked before the payload is measured. -/
theorem bodyErrorsEndTheBlock : Obligations.BodyErrorsEndTheBlock := by
  intro s
  refine ⟨?reserved, fun d i hbad => ?badIndex, fun d i hi hshort => ?short⟩
  case reserved => rintro b i (rfl | rfl) <;> exact ⟨_, rfl, s.blockEnded_withReply _ _⟩
  case badIndex =>
    have hexec := (exec_bulkKeyRow d i s).trans (onScratch_of_error (bulkKey_of_badIndex d hbad))
    exact ⟨_, hexec, s.blockEnded_withReply _ _⟩
  case short =>
    have hexec := (exec_bulkKeyRow d i s).trans (onScratch_of_error (bulkKey_of_short hi hshort))
    exact ⟨_, hexec, s.blockEnded_withReply _ _⟩

theorem bulkHeader_of_word (v : BitVec 5) {b0 : Byte} {w : Word} {rest : List Byte} {sc : Scratch}
    (h : sc.input = b0 :: (leBytes w 4 ++ rest)) : bulkHeader v sc = .ok (Scratch.seeded (v.toNat + 1) w rest) := by
  simp only [bulkHeader, h, leBytes_four, List.cons_append, List.nil_append, le32_bytes, Fifo.clear_eq, Scratch.seeded]

theorem bulkHeader_of_short (v : BitVec 5) {sc : Scratch} (h : sc.input.length < 5) :
    bulkHeader v sc = .error .malformedBoundary := by
  obtain ⟨-, herror⟩ | ⟨_, _, _, _, _, _, hin, -⟩ := bulkHeader_cases v sc
  · exact herror
  · simp only [hin, List.length_cons] at h
    omega

/-- Settles O39: it holds, as the five rows are one operation at the low 5 bits of their header byte. -/
theorem headerRowSeedsScratch : Obligations.HeaderRowSeedsScratch := by
  intro i v s hi
  have hrow : exec i s = onScratch (bulkHeader v) s := by
    obtain rfl | ⟨h, rfl, rfl | rfl | rfl | rfl⟩ := hi <;> rfl
  constructor
  · intro b0 w rest hin
    have hexec := hrow.trans (onScratch_of_ok (bulkHeader_of_word v hin))
    have hwin : (Fifo.empty (v.toNat + 1)).insert w = { slots := [w], oldest := 0, cap := v.toNat + 1 } :=
      Fifo.insert_empty v.toNat w
    rw [Scratch.seeded, hwin] at hexec
    exact ⟨_, hexec, rfl, rfl, rfl, rfl, rfl, ⟨rfl, rfl, rfl, rfl⟩, rfl⟩
  · intro hshort
    have hexec := hrow.trans (onScratch_of_error (bulkHeader_of_short v hshort))
    exact ⟨_, hexec, s.blockEnded_withReply _ _⟩

/-- Settles O40: it holds, as the row answers whatever is left of the block. -/
theorem escapeRowReturnsRest : Obligations.EscapeRowReturnsRest := by
  intro h b0 r s hin
  have hexec : exec (.blkEsc h) s = .next ((s.withBlk Scratch.idle).withReply ⟨.ok, .bytes (s.blk.input.drop 1)⟩) := rfl
  rw [hin, List.drop_one, List.tail_cons] at hexec
  exact ⟨_, hexec, s.blockEnded_withReply _ _⟩

end Sys2Proof.Machine
end

section
/-! PROOFS. BLK_DECOMPRESS as its records (R259). A row run on `State.blk` is its operation on the scratch, so the body rows and
the loop of BLK_DECOMPRESS go through the same scratches, and a raised status ends both. -/

namespace Sys2Proof.Machine

theorem exec_decodeBulkBody (k : Byte) (s : State) : exec (decodeBulkBody k) s = onScratch (bulkRecord k) s := by
  have hclass := tagOf_lt k
  have hrecord : bulkRecord k = fun sc => if 5 ≤ tagOf k then .error .reservedKey else bulkKey (tagOf k) (low5 k) sc :=
    funext (bulkRecord_eq k)
  rw [hrecord, decodeBulkBody]
  generalize tagOf k = t at hclass
  match t, hclass with
  | 0, _ | 1, _ | 2, _ | 3, _ | 4, _ | 5, _ | 6, _ | 7, _ => rfl

theorem exec_decodeBulkHeader_of_compressed {h : Byte} (hcomp : h < 0xE0) (s : State) :
    exec (decodeBulkHeader h) s = onScratch (bulkHeader (low5 h)) s := by
  have hclass : tagOf h < 7 := by rw [tagOf_eq_div]; bv_omega
  rw [decodeBulkHeader]
  generalize tagOf h = t at hclass
  match t, hclass with
  | 0, _ | 1, _ | 2, _ | 3, _ | 4, _ | 5, _ | 6, _ => rfl

theorem exec_decodeBulkHeader_of_escape {h : Byte} (hesc : 0xE0 ≤ h) (s : State) :
    exec (decodeBulkHeader h) s = exec (.blkEsc h) s := by
  have hclass : tagOf h = 7 := by rw [tagOf_eq_div]; bv_omega
  simp only [decodeBulkHeader, hclass]

/-- The state a command begun in `s` ends in when the records of its block gave `o`. -/
def State.ended (s : State) (o : Except Status (List Byte)) : State :=
  (s.withBlk Scratch.idle).withReply (blockReply o)

theorem endBlock_runBodyRecords_of_reply (n : Nat) {t : State} {r : Reply} (h : t.port.reply = some r) :
    endBlock (runBodyRecords n t) = .next t := by
  cases n <;> simp only [runBodyRecords, endBlock, h]

theorem endBlock_runBodyRecords_of_nil (n m : Nat) {t : State} (hreply : t.port.reply = none)
    (hin : t.blk.input = []) :
    endBlock (runBodyRecords n t) = .next (t.ended ((bulkBody m t.blk).map Scratch.out)) := by
  have hbody : bulkBody m t.blk = .ok t.blk := by
    cases m <;> simp only [bulkBody, hin]
  rw [hbody]
  cases n <;> simp only [runBodyRecords, endBlock, hreply, hin, complete_eq] <;> rfl

theorem runBodyRecords_cons {n : Nat} {t u : State} {k : Byte} {r : List Byte} (hreply : t.port.reply = none)
    (hin : t.blk.input = k :: r) (hrow : onScratch (bulkRecord k) t = .next u) :
    runBodyRecords (n + 1) t = runBodyRecords n u := by
  simp only [runBodyRecords, hreply, hin, exec_decodeBulkBody, hrow]

theorem bulkBody_cons_error {n : Nat} {k : Byte} {r : List Byte} {sc : Scratch} {e : Status} (hin : sc.input = k :: r)
    (h : bulkRecord k sc = .error e) : bulkBody (n + 1) sc = .error e := by
  simp only [bulkBody, hin, h]

/-- Every record reads its key byte at least, so the bytes left bound the records, whichever loop runs them. -/
theorem length_input_of_bulkRecord {k : Byte} {r : List Byte} {sc sc' : Scratch} (hin : sc.input = k :: r)
    (h : bulkRecord k sc = .ok sc') : sc'.input.length < sc.input.length := by
  obtain ⟨rec, -, hrec, hread, -⟩ := bulkRecord_ok hin h
  have hpos := hrec.length_pos
  rw [hread, List.length_append]
  omega

/-- The body rows on `State.blk` give what the loop of BLK_DECOMPRESS gives, with enough fuel for either. -/
theorem endBlock_runBodyRecords {n m : Nat} {t : State} (hreply : t.port.reply = none) (hn : t.blk.input.length ≤ n)
    (hm : t.blk.input.length ≤ m) :
    endBlock (runBodyRecords n t) = .next (t.ended ((bulkBody m t.blk).map Scratch.out)) := by
  induction n generalizing t m with
  | zero => exact endBlock_runBodyRecords_of_nil 0 m hreply (List.length_eq_zero_iff.1 (Nat.le_zero.1 hn))
  | succ n ih =>
    cases hin : t.blk.input with
    | nil => exact endBlock_runBodyRecords_of_nil (n + 1) m hreply hin
    | cons k r =>
      obtain ⟨m, rfl⟩ := Nat.exists_eq_succ_of_ne_zero (show m ≠ 0 by rw [hin, List.length_cons] at hm; omega)
      cases hrecord : bulkRecord k t.blk with
      | error e =>
        rw [runBodyRecords_cons hreply hin (onScratch_of_error hrecord), bulkBody_cons_error hin hrecord]
        exact endBlock_runBodyRecords_of_reply n rfl
      | ok sc =>
        have hshorter := length_input_of_bulkRecord hin hrecord
        rw [runBodyRecords_cons hreply hin (onScratch_of_ok hrecord), bulkBody_cons hin hrecord]
        exact ih (t := t.withBlk sc) hreply (Nat.le_of_lt_succ (hshorter.trans_le hn))
          (Nat.le_of_lt_succ (hshorter.trans_le hm))

theorem runBlockRecords_of_header {h : Byte} {b : List Byte} {s t : State}
    (hrow : exec (decodeBulkHeader h) (s.beginBlock b) = .next t) :
    runBlockRecords h b s = endBlock (runBodyRecords b.length t) := by
  simp only [runBlockRecords, hrow]

/-- A block run record by record gives what BLK_DECOMPRESS gives: the escape row its bytes, a header row with a short block its
status, and any other header row the body rows after it. -/
theorem runBlockRecords_eq (h : Byte) (r : List Byte) (s : State) :
    runBlockRecords h (h :: r) s = .next (s.ended (decompressBlock (h :: r))) := by
  by_cases hesc : 0xE0 ≤ h
  · rw [runBlockRecords_of_header (exec_decodeBulkHeader_of_escape hesc _), decompressBlock_of_escape r hesc]
    exact endBlock_runBodyRecords_of_reply _ rfl
  have hcomp : h < 0xE0 := BitVec.not_le.1 hesc
  have hrow := exec_decodeBulkHeader_of_compressed hcomp (s.beginBlock (h :: r))
  by_cases hshort : r.length < 4
  · have herror := hrow.trans (onScratch_of_error (bulkHeader_load_of_short h hshort))
    rw [runBlockRecords_of_header herror, decompressBlock_of_short hcomp hshort]
    exact endBlock_runBodyRecords_of_reply _ rfl
  · obtain ⟨w0, rest, rfl⟩ := exists_word_append (not_lt.1 hshort)
    have hseeded := hrow.trans (onScratch_of_ok (bulkHeader_load_of_word h w0 rest))
    rw [runBlockRecords_of_header hseeded, decompressBlock_of_word w0 rest hcomp]
    refine endBlock_runBodyRecords rfl ?_ le_rfl
    simp only [State.withBlk_blk, Scratch.seeded, List.length_cons, List.length_append]
    omega

/-- Settles O8: it holds, as either side ends with the reply that `decompressBlock` gives. -/
theorem decompressRunsItsRecords : Obligations.DecompressRunsItsRecords := by
  intro s h r hidle hwithin
  have hmax : ∀ m, s.limits.blkMax = some m → (h :: r).length ≤ m + 1 := by
    simpa [within_iff, Limits.blkMaxEscaped] using hwithin
  have hended : s.ended (decompressBlock (h :: r)) = s.withReply (blockReply (decompressBlock (h :: r))) := by
    rw [State.ended, ← hidle]
    rfl
  rw [exec_blkDecompress_of_within (List.cons_ne_nil h r) hmax, runBlockRecords_eq, hended]

end Sys2Proof.Machine
end

section
/-! PROOFS. What a successful ENC_WORD leaves for the next command: its record reads back (R63, R189), and after ENC_SET_STRENGTH
it is a reset record of the new strength (R186). -/

namespace Sys2Proof.Machine

/-- The encoder after ENC_WORD took a word (R182 to R184). -/
def Encoder.take (e : Encoder) (w : Word) : Encoder := { e.outAppend (e.record w) with win := e.win.insert w }

@[simp] theorem Encoder.take_strength (e : Encoder) (w : Word) : (e.take w).strength = e.strength := rfl

@[simp] theorem Encoder.take_win (e : Encoder) (w : Word) : (e.take w).win = e.win.insert w := rfl

@[simp] theorem Encoder.take_out (e : Encoder) (w : Word) : (e.take w).out = e.out.writeBytes e.pos (e.record w) := rfl

@[simp] theorem Encoder.take_pos (e : Encoder) (w : Word) : (e.take w).pos = e.pos + (e.record w).length := rfl

theorem exec_encWord_of_room {w : Word} {s : State} (h : s.enc.pos + (s.enc.record w).length ≤ s.limits.outCap) :
    exec (.encWord w) s = .next ((s.withEnc (s.enc.take w)).withReply ⟨.ok, .written (s.enc.record w).length⟩) := by
  obtain ⟨hfull, -⟩ | ⟨-, hexec⟩ := execEncWord_cases w s
  · exact absurd h hfull.not_ge
  · exact hexec

/-- What an OK from ENC_WORD says: the record fitted and the encoder took the word. -/
theorem exec_encWord_ok {w : Word} {s t : State} {n : Nat} (hexec : exec (.encWord w) s = .next t)
    (hok : t.answered .ok (.written n)) : n = (s.enc.record w).length ∧ t.enc = s.enc.take w ∧ t.dec = s.dec := by
  obtain ⟨-, hfull⟩ | ⟨-, htaken⟩ := execEncWord_cases w s
  · cases hexec.symm.trans hfull
    cases hok
  · cases hexec.symm.trans htaken
    cases hok
    exact ⟨rfl, rfl, rfl⟩

theorem Encoder.readBytes_take (e : Encoder) (w : Word) :
    (e.take w).out.readBytes e.pos (e.record w).length = some (e.record w) :=
  Memory.readBytes_writeBytes e.out e.pos (e.record w)

/-- Settles O12: it holds, as the record ends at the new `ENC_POS`. -/
theorem readOutReturnsTheRecord : Obligations.ReadOutReturnsTheRecord := by
  intro w s t n hexec hok
  obtain ⟨rfl, henc, -⟩ := exec_encWord_ok hexec hok
  have hbelow : s.enc.pos + (s.enc.record w).length ≤ t.enc.pos := by rw [henc, Encoder.take_pos]
  have hread : t.enc.out.readBytes s.enc.pos (s.enc.record w).length = some (s.enc.record w) := by
    rw [henc, Encoder.readBytes_take]
  exact ⟨_, exec_encReadOut_of_readBytes hbelow hread, rfl, t.sameButReply_withReply _⟩

/-- What an OK from ENC_SET_STRENGTH says: the strength was in range and taken. -/
theorem exec_encSetStrength_ok {v : Byte} {s t : State} (hexec : exec (.encSetStrength v) s = .next t)
    (hok : t.answered .ok .nothing) :
    t = (s.withEnc { s.enc with strength := low5 v, win := Fifo.empty (v.toNat + 1) }).withReply ⟨.ok, .nothing⟩ := by
  by_cases h : v.toNat ≤ 31
  · cases hexec.symm.trans (exec_encSetStrength_of_le s h)
    rfl
  · cases hexec.symm.trans (exec_encSetStrength_of_gt s (not_le.1 h))
    cases hok

/-- Settles O14: it holds, as the window the command leaves is empty. -/
theorem strengthTakesEffectAtNextWord : Obligations.StrengthTakesEffectAtNextWord := by
  intro v w s t hexec hok hroom
  obtain rfl := exec_encSetStrength_ok hexec hok
  have hrecord := Encoder.record_of_empty (e := { s.enc with strength := low5 v, win := Fifo.empty (v.toNat + 1) }) w rfl
  obtain ⟨u, hword, hu⟩ := exec_encWord_of_le (s := (s.withEnc _).withReply _) hrecord (resetRecord_length _ w) hroom
  have hwin : u.enc.win = { slots := [w], oldest := 0, cap := v.toNat + 1 } :=
    hu.win.trans (Fifo.insert_empty v.toNat w)
  exact ⟨u, hword, hu.answered, hu.readBack, by rw [hwin], by rw [hwin]⟩

end Sys2Proof.Machine
end

section
/-! PROOFS. The sizes of BLK_COMPRESS (R257): a key record is at most 5 bytes, in a window of any capacity, and the escape rule
bounds the result. -/

namespace Sys2Proof.Machine

theorem findBestMatch_age_le_four (f : Fifo) (w : Word) : (findBestMatch f w .age).2 ≤ 4 := by
  obtain ⟨heq, -⟩ | ⟨-, hlt⟩ := findBestMatch_cases f w .age
  · rw [heq, ScanOrder.sentinel]
  · exact hlt.le

theorem length_compressWords_le (f : Fifo) (ws : List Word) : (compressWords f ws).length ≤ 5 * ws.length := by
  induction ws generalizing f with
  | nil => exact Nat.zero_le _
  | cons w ws ih =>
    have hrest := ih (f.insert w)
    have hd := findBestMatch_age_le_four f w
    rw [compressWords, List.length_append, keyRecord_length, List.length_cons]
    omega

theorem length_compressedForm_le (v : Byte) (w0 : Word) (ws : List Word) :
    (compressedForm v w0 ws).length ≤ 5 * (ws.length + 1) := by
  have hrest := length_compressWords_le ((Fifo.empty (v.toNat + 1)).insert w0) ws
  rw [compressedForm_eq, List.length_cons, List.length_append, leBytes_length]
  omega

/-- The header of the result tells its two forms apart, and so does its length (R256). -/
theorem State.AcceptsBlock.compressBlock_header {s : State} {b : List Byte} {v : Byte} (h : s.AcceptsBlock b v) :
    ∃ hd r, compressBlock b v = hd :: r ∧ ((compressBlock b v).length < b.length ↔ hd < 0xE0) := by
  obtain heq | ⟨w0, ws, -, heq, hshorter⟩ := h.compressBlock_cases
  · refine ⟨_, b, heq, ?_⟩
    have hlong : ¬ ((0xE0 ||| v) :: b).length < b.length := by rw [List.length_cons]; omega
    rw [heq]
    exact iff_of_false hlong (BitVec.not_lt.2 (escapeHeader_le v))
  · have hv : v.toNat ≤ 31 := h.strength
    rw [heq]
    exact ⟨v, _, compressedForm_eq v w0 ws, iff_of_true hshorter (by bv_omega)⟩

/-- Settles O37: it holds, by the escape rule and the size of a key record. -/
theorem compressedSizeBounds : Obligations.CompressedSizeBounds := by
  refine ⟨fun b c v s t hexec hok => ?_, length_compressedForm_le⟩
  obtain ⟨haccepts, rfl⟩ := exec_blkCompress_ok hexec hok
  exact ⟨compressBlock_length_le haccepts, haccepts.compressBlock_header⟩

end Sys2Proof.Machine
end

section
/-! PROOFS. The round trip of a stream (R226). One record takes an encoder and the decoder that mirrors it to encoder and decoder
that mirror each other again; a sequence of words is its records one after another. -/

namespace Sys2Proof.Machine

/-- A decoder can read the records of `e`: the encoder's window is legal, and it is empty, so that the next record is a reset
record, or the decoder has the same window and strength. -/
structure Encoder.MirroredBy (e : Encoder) (d : Decoder) : Prop where
  wf : e.win.Wf
  cap : e.win.cap = e.strength.toNat + 1
  agree : e.win.count = 0 ∨ d.win = e.win ∧ d.strength = e.strength

/-- The decoder that has read every record of `e`, with `rest` queued. -/
def Encoder.mirror (e : Encoder) (rest : List Byte) : Decoder := { strength := e.strength, win := e.win, input := rest }

theorem Encoder.MirroredBy.take {e : Encoder} {d : Decoder} (h : e.MirroredBy d) (w : Word) (rest : List Byte) :
    (e.take w).MirroredBy ((e.take w).mirror rest) :=
  ⟨Fifo.wf_insert w h.wf, (Fifo.insert_cap e.win w).trans h.cap, .inr ⟨rfl, rfl⟩⟩

theorem Fifo.eq_empty {f : Fifo} (hwf : f.Wf) (h : f.count = 0) : f = Fifo.empty f.cap := by
  obtain ⟨⟨hpos, -⟩, -, -, hzero⟩ := hwf
  obtain ⟨slots, oldest, cap⟩ := f
  obtain rfl : slots = [] := List.length_eq_zero_iff.1 h
  obtain rfl : oldest = 0 := hzero hpos
  rfl

theorem exec_decWord_of_resetRecord {v : BitVec 5} {w : Word} {rest : List Byte} {x : State}
    (hin : x.dec.input = resetRecord v w ++ rest) :
    ∃ u, exec .decWord x = .next u ∧ u.answered .ok (.word w)
      ∧ u.dec = { strength := v, win := (Fifo.empty (v.toNat + 1)).insert w, input := rest } := by
  have hlead : x.dec.input[0]? = some (0xC0 ||| v.setWidth 8) := by rw [hin]; rfl
  have hexec := (exec_decWord_of_row hlead (decodeStream_resetLead v)).trans (exec_resetRec_of_record hin)
  rw [Fifo.insert_empty]
  exact ⟨_, hexec, rfl, rfl⟩

/-- A key record whose slot holds a word within its difference decodes to its word (R160, R223). -/
theorem exec_decWord_of_keyRecord {i d : Nat} {w e : Word} {rest : List Byte} {x : State} (hi : i < 32) (hd : d ≤ 4)
    (hread : x.dec.win.read i = some e) (hclass : classify (w ^^^ e) ≤ d)
    (hin : x.dec.input = keyRecord i d w ++ rest) :
    ∃ u, exec .decWord x = .next u ∧ u.answered .ok (.word w)
      ∧ u.dec = { strength := x.dec.strength, win := x.dec.win.insert w, input := rest } := by
  have hlead : x.dec.input[0]? = some (keyPack d i) := by rw [hin]; rfl
  have hlen : 1 + d ≤ x.dec.input.length := by rw [hin, List.length_append, keyRecord_length]; omega
  have hdrop : x.dec.input.drop (1 + d) = rest := by
    rw [hin]
    exact List.drop_left' (by rw [keyRecord_length, Nat.add_comm])
  have hword : keyWord e d x.dec.input = w := by
    have htake : ((keyRecord i d w ++ rest).drop 1).take d = payload w d := by simp [keyRecord]
    rw [keyWord, hin, htake, rebuildOfPayload w e d hclass hd]
  have hrow := decodeStream_keyPack ⟨d, Nat.lt_succ_of_le hd⟩ (BitVec.ofFin ⟨i, hi⟩)
  have hexec : exec .decWord x = .next
      ((x.withDec { x.dec.inConsume (1 + d) with win := x.dec.win.insert (keyWord e d x.dec.input) }).withReply
        ⟨.ok, .word (keyWord e d x.dec.input)⟩) :=
    (exec_decWord_of_row hlead hrow).trans (exec_streamKeyRow_of_record hread hlen)
  rw [hword, Decoder.inConsume, hdrop] at hexec
  exact ⟨_, hexec, rfl, rfl⟩

/-- The record of a word decodes to the word, and the decoder mirrors the encoder after it (R226, one record). -/
theorem exec_decWord_of_record {e : Encoder} {w : Word} {rest : List Byte} {x : State} (h : e.MirroredBy x.dec)
    (hin : x.dec.input = e.record w ++ rest) :
    ∃ u, exec .decWord x = .next u ∧ u.answered .ok (.word w) ∧ u.dec = (e.take w).mirror rest := by
  obtain ⟨hwf, hcap, hagree⟩ := h
  by_cases hempty : e.win.count = 0
  · rw [Encoder.record_of_empty w hempty] at hin
    have hwin : e.win = Fifo.empty (e.strength.toNat + 1) := hcap ▸ Fifo.eq_empty hwf hempty
    rw [Encoder.mirror, Encoder.take_win, hwin]
    exact exec_decWord_of_resetRecord hin
  · obtain ⟨hwin, hstrength⟩ := hagree.resolve_left hempty
    obtain ⟨⟨e', hread, hclass⟩, -⟩ := streamingSearchTakesLowestLeast e.win w _ _ hempty rfl
    obtain ⟨hi, hd⟩ := findBestMatch_slot_bound (w := w) hempty rfl
    obtain ⟨⟨-, hcap32⟩, hle, -, -⟩ := hwf
    rw [Encoder.record_of_findBestMatch hempty rfl] at hin
    rw [Encoder.mirror, Encoder.take_win, Encoder.take_strength, ← hwin, ← hstrength]
    exact exec_decWord_of_keyRecord (hi.trans_le (hle.trans hcap32)) hd (hwin ▸ hread) hclass.le hin

/-- Settles O45: it holds, as the bytes written are the record. -/
theorem decoderMirrorsEncoder : Obligations.DecoderMirrorsEncoder := by
  rintro w s t n rest ⟨hwf, hcap, -⟩ hagree hexec hok
  obtain ⟨rfl, henc, hdec⟩ := exec_encWord_ok hexec hok
  have hmirrored : s.enc.MirroredBy { t.dec with input := s.enc.record w ++ rest } := ⟨hwf, hcap, by rwa [hdec]⟩
  obtain ⟨u, hdecode, hword, hu⟩ := exec_decWord_of_record (x := t.withDec _) hmirrored rfl
  refine ⟨s.enc.record w, u, ?_, hdecode, hword, ?_⟩
  · rw [henc, Encoder.readBytes_take]
  · rw [hu, henc]
    exact ⟨rfl, rfl, rfl⟩

/-- The encoder after it took words one after another. -/
def Encoder.takeAll (e : Encoder) (ws : List Word) : Encoder := ws.foldl Encoder.take e

/-- The records ENC_WORD writes for words one after another. -/
def Encoder.records : Encoder → List Word → List Byte
  | _, [] => []
  | e, w :: ws => e.record w ++ Encoder.records (e.take w) ws

theorem Encoder.length_record_le (e : Encoder) (w : Word) : (e.record w).length ≤ 5 := by
  by_cases hempty : e.win.count = 0
  · rw [Encoder.record_of_empty w hempty, resetRecord_length]
  · obtain ⟨-, hd⟩ := findBestMatch_slot_bound (w := w) hempty rfl
    rw [Encoder.record_of_findBestMatch hempty rfl, keyRecord_length]
    omega

theorem Encoder.length_records_le (e : Encoder) (ws : List Word) : (e.records ws).length ≤ 5 * ws.length := by
  induction ws generalizing e with
  | nil => exact Nat.zero_le _
  | cons w ws ih =>
    have hrecord := e.length_record_le w
    have hrest := ih (e.take w)
    rw [Encoder.records, List.length_append, List.length_cons]
    omega

theorem Memory.writeBytes_append (m : Memory) (x : Nat) (a b : List Byte) :
    m.writeBytes x (a ++ b) = (m.writeBytes x a).writeBytes (x + a.length) b := by
  induction a generalizing m x with
  | nil => rfl
  | cons v a ih =>
    rw [List.cons_append, Memory.writeBytes, Memory.writeBytes, ih, List.length_cons, Nat.add_right_comm, Nat.add_assoc]

theorem Encoder.takeAll_pos (e : Encoder) (ws : List Word) : (e.takeAll ws).pos = e.pos + (e.records ws).length := by
  induction ws generalizing e with
  | nil => rfl
  | cons w ws ih =>
    calc (e.takeAll (w :: ws)).pos
      _ = (e.take w).pos + ((e.take w).records ws).length := ih (e.take w)
      _ = e.pos + (e.records (w :: ws)).length := by
        rw [Encoder.take_pos, Encoder.records, List.length_append, Nat.add_assoc]

theorem Encoder.takeAll_out (e : Encoder) (ws : List Word) :
    (e.takeAll ws).out = e.out.writeBytes e.pos (e.records ws) := by
  induction ws generalizing e with
  | nil => rfl
  | cons w ws ih =>
    calc (e.takeAll (w :: ws)).out
      _ = (e.take w).out.writeBytes (e.take w).pos ((e.take w).records ws) := ih (e.take w)
      _ = e.out.writeBytes e.pos (e.records (w :: ws)) := by
        rw [Encoder.take_out, Encoder.take_pos, Encoder.records, Memory.writeBytes_append]

theorem execAll_cons {i : Instr} {is : List Instr} {s t : State} (h : exec i s = .next t) :
    execAll (i :: is) s = execAll is t := by
  simp only [execAll, h]

/-- With room for their records, ENC_WORD takes words one after another and leaves the decoder alone. -/
theorem execAll_encWord {ws : List Word} {s : State}
    (hroom : s.enc.pos + (s.enc.records ws).length ≤ s.limits.outCap) :
    ∃ t, execAll (ws.map Instr.encWord) s = some t ∧ t.enc = s.enc.takeAll ws ∧ t.dec = s.dec := by
  induction ws generalizing s with
  | nil => exact ⟨s, rfl, rfl, rfl⟩
  | cons w ws ih =>
    rw [Encoder.records, List.length_append] at hroom
    have hexec := exec_encWord_of_room (w := w) (s := s) (by omega)
    obtain ⟨t, hall, henc, hdec⟩ := ih (s := (s.withEnc (s.enc.take w)).withReply _) (by
      simp only [State.withReply_enc, State.withEnc_enc, State.withReply_limits, State.withEnc_limits, Encoder.take_pos]
      omega)
    exact ⟨t, (execAll_cons hexec).trans hall, henc, hdec⟩

theorem decodeWords_cons {n : Nat} {s t u : State} {w : Word} {ws : List Word} (hexec : exec .decWord s = .next t)
    (hword : t.answered .ok (.word w)) (hrest : decodeWords n t = some (ws, u)) :
    decodeWords (n + 1) s = some (w :: ws, u) := by
  simp only [decodeWords, hexec, hword, hrest, Option.map_some]

/-- The records of a non-empty sequence decode to its words, and the decoder mirrors the encoder after them. -/
theorem decodeWords_records {e : Encoder} {w : Word} {ws : List Word} {x : State} (h : e.MirroredBy x.dec)
    (hin : x.dec.input = e.records (w :: ws)) :
    ∃ u, decodeWords (w :: ws).length x = some (w :: ws, u) ∧ u.dec = (e.takeAll (w :: ws)).mirror [] := by
  induction ws generalizing e w x with
  | nil =>
    obtain ⟨u, hexec, hword, hu⟩ := exec_decWord_of_record h hin
    exact ⟨u, decodeWords_cons hexec hword rfl, hu⟩
  | cons w' ws ih =>
    obtain ⟨y, hexec, hword, hy⟩ := exec_decWord_of_record h hin
    obtain ⟨u, hrest, hu⟩ := ih (e := e.take w) (w := w') (x := y) (hy ▸ h.take w _) (by rw [hy]; rfl)
    exact ⟨u, decodeWords_cons hexec hword hrest, hu⟩

/-- Settles O46: it holds, as an empty window makes the first record a reset record, and every record keeps the windows equal. -/
theorem streamRoundTrip : Obligations.StreamRoundTrip := by
  rintro ws s ⟨⟨hwf, hcap, -⟩, -⟩ hempty hws hroom
  have hlen := s.enc.length_records_le ws
  obtain ⟨t, hall, henc, -⟩ := execAll_encWord (ws := ws) (s := s) (by omega)
  have hmirrored : s.enc.MirroredBy { t.dec with input := s.enc.records ws } := ⟨hwf, hcap, .inl hempty⟩
  obtain ⟨w, ws, rfl⟩ := List.exists_cons_of_ne_nil hws
  obtain ⟨u, hdecode, hu⟩ := decodeWords_records (x := t.withDec _) hmirrored rfl
  refine ⟨t, u, s.enc.records (w :: ws), hall, ?_, hdecode, ?_⟩
  · rw [henc, Encoder.takeAll_pos, Nat.add_sub_cancel_left, Encoder.takeAll_out, Memory.readBytes_writeBytes]
  · rw [hu, henc]
    exact ⟨rfl, rfl, rfl⟩

end Sys2Proof.Machine
end

section
/-! PROOFS. The channels and the bulk path apart (R323, R43). What an instruction of a channel reads and writes is said by its local
lemma; the frames, and that a reply depends on the instruction's own channel, are read from it. -/

namespace Sys2Proof.Machine

theorem exec_enc_frame {i : Instr} {s t : State} (hi : i.isEnc = true) (h : exec i s = .next t) :
    t.sameOutsideEnc s := by
  obtain ⟨e, r, he⟩ | ⟨_, _, _, _, _, hfault⟩ := exec_enc_local i s hi
  · cases h.symm.trans (he s rfl rfl)
    exact ⟨rfl, rfl, rfl, rfl⟩
  · cases h.symm.trans hfault

theorem exec_dec_frame {i : Instr} {s t : State} (hi : i.isDec = true) (h : exec i s = .next t) :
    t.sameOutsideDec s := by
  obtain ⟨d, r, hd⟩ := exec_dec_local i s hi
  cases h.symm.trans (hd s rfl rfl)
  exact ⟨rfl, rfl, rfl, rfl⟩

theorem exec_bulk_frame {i : Instr} {s t : State} (hi : i.isBulkCommand = true) (h : exec i s = .next t) :
    t.sameButReply s := by
  obtain ⟨r, hr⟩ := exec_bulk_local i s hi
  cases h.symm.trans (hr s rfl)
  exact s.sameButReply_withReply r

theorem exec_bulkRecord_frame {i : Instr} {s t : State} (hi : i.isBulkRecord = true) (h : exec i s = .next t) :
    t.sameOutsideBlk s := by
  obtain ⟨sc, hsc⟩ | ⟨r, hr⟩ := exec_bulkRecord_cases i s hi
  · cases h.symm.trans hsc
    exact ⟨rfl, rfl, rfl, rfl⟩
  · cases h.symm.trans hr
    exact ⟨rfl, rfl, rfl, rfl⟩

/-- Settles O53: it holds, by the frame of each of the four groups. -/
theorem channelsKeepApart : Obligations.ChannelsKeepApart := fun _ _ _ h =>
  ⟨fun hi => exec_enc_frame hi h, fun hi => exec_dec_frame hi h, fun hi => exec_bulk_frame hi h,
    fun hi => exec_bulkRecord_frame hi h⟩

/-- Settles O54: it holds, as the local lemma of a channel gives one effect and one reply for all states that agree on it. -/
theorem repliesDependOnOwnChannel : Obligations.RepliesDependOnOwnChannel := by
  intro i s s' t hlimits h
  refine ⟨fun hi henc => ?enc, fun hi hdec => ?dec, fun hi => ?bulk⟩
  case enc =>
    obtain ⟨e, r, he⟩ | ⟨_, _, _, _, _, hfault⟩ := exec_enc_local i s hi
    · cases h.symm.trans (he s rfl rfl)
      exact ⟨_, he s' henc.symm hlimits.symm, rfl, rfl⟩
    · cases h.symm.trans hfault
  case dec =>
    obtain ⟨d, r, hd⟩ := exec_dec_local i s hi
    cases h.symm.trans (hd s rfl rfl)
    exact ⟨_, hd s' hdec.symm hlimits.symm, rfl, rfl⟩
  case bulk =>
    obtain ⟨r, hr⟩ := exec_bulk_local i s hi
    cases h.symm.trans (hr s rfl)
    exact ⟨_, hr s' hlimits.symm, rfl⟩

end Sys2Proof.Machine
end

section
/-! PROOFS. The statuses an instruction ends with (R300, R310 to R313). The cases of the channels and of the bulk commands name
theirs; a bulk record ends with an error of its operation on the scratch, or leaves the reply for the end of the block. -/

namespace Sys2Proof.Machine

/-- `t` carries a reply whose status is one of `es`. -/
def State.AnsweredIn (t : State) (es : List Status) : Prop := ∃ e r, t.answered e r ∧ e ∈ es

theorem State.answeredIn_withReply (s : State) {r : Reply} {es : List Status} (h : r.status ∈ es) :
    (s.withReply r).AnsweredIn es :=
  ⟨r.status, r.result, rfl, h⟩

theorem exec_enc_answered {i : Instr} {s t : State} (hi : i.isEnc = true) (h : exec i s = .next t) :
    t.AnsweredIn i.statuses := by
  obtain ⟨r, rfl, hr, -⟩ | ⟨w, rfl, -, rfl⟩ | ⟨v, rfl, -, rfl⟩ | ⟨rfl, rfl⟩ | ⟨rfl, rfl⟩ := exec_enc_cases hi h
  case inl => exact s.answeredIn_withReply hr
  -- Every case that writes the encoder answers OK, which stands first in its row of R300.
  all_goals exact State.answeredIn_withReply _ List.mem_cons_self

theorem exec_dec_answered {i : Instr} {s t : State} (hi : i.isDec = true) (h : exec i s = .next t) :
    t.AnsweredIn i.statuses := by
  obtain ⟨r, rfl, hr, -⟩ | ⟨n, w, rfl, hok⟩ | ⟨v, w, read, rest, -, hrow, rfl⟩ | ⟨b, rfl, -, rfl⟩ | ⟨rfl, rfl⟩
    | ⟨rfl, rfl⟩ := exec_dec_cases hi h
  · exact s.answeredIn_withReply hr
  · exact State.answeredIn_withReply _ hok
  · obtain rfl | ⟨rfl, -⟩ := hrow <;> exact State.answeredIn_withReply _ List.mem_cons_self
  all_goals exact State.answeredIn_withReply _ List.mem_cons_self

theorem exec_bulk_answered {i : Instr} {s t : State} (hi : i.isBulkCommand = true) (h : exec i s = .next t) :
    t.AnsweredIn i.statuses := by
  obtain ⟨r, rfl, hr, -⟩ := exec_bulk_cases hi h
  exact s.answeredIn_withReply hr

theorem bulkHeader_error {v : BitVec 5} {sc : Scratch} {e : Status} (h : bulkHeader v sc = .error e) :
    e ∈ [Status.malformedBoundary] := by
  obtain ⟨-, herror⟩ | ⟨_, _, _, _, _, _, -, hok⟩ := bulkHeader_cases v sc
  · cases h.symm.trans herror
    exact List.mem_cons_self
  · cases h.symm.trans hok

theorem bulkKey_error {d : Nat} {i : BitVec 5} {sc : Scratch} {e : Status} (h : bulkKey d i sc = .error e) :
    e ∈ [Status.invalidBackReference, .malformedBoundary] := by
  obtain ⟨-, herror⟩ | ⟨_, -, -, herror⟩ | ⟨_, _, -, -, -, hok⟩ := bulkKey_cases d i sc
  · cases h.symm.trans herror
    exact List.mem_cons_self
  · cases h.symm.trans herror
    exact List.mem_cons_of_mem _ List.mem_cons_self
  · cases h.symm.trans hok

theorem onScratch_answered {f : Scratch → Except Status Scratch} {es : List Status} {s t : State}
    (hf : ∀ e, f s.blk = .error e → e ∈ es) (h : onScratch f s = .next t) :
    t.AnsweredIn es ∨ t.port.reply = s.port.reply := by
  obtain ⟨sc, -, hok⟩ | ⟨e, he, herror⟩ := onScratch_cases f s
  · cases h.symm.trans hok
    exact .inr rfl
  · cases h.symm.trans herror
    exact .inl (State.answeredIn_withReply _ (hf e he))

theorem exec_bulkRecord_answered {i : Instr} {s t : State} (hi : i.isBulkRecord = true) (h : exec i s = .next t) :
    t.AnsweredIn i.statuses ∨ t.port.reply = s.port.reply := by
  cases i with
  | blkHdr => exact onScratch_answered (fun _ => bulkHeader_error) h
  | blkHdrUnproduced20To3F => exact onScratch_answered (fun _ => bulkHeader_error) h
  | blkHdrUnproduced40To7F => exact onScratch_answered (fun _ => bulkHeader_error) h
  | blkHdrUnproduced80ToBF => exact onScratch_answered (fun _ => bulkHeader_error) h
  | blkHdrUnproducedC0ToDF => exact onScratch_answered (fun _ => bulkHeader_error) h
  | blkKeyD0 => exact onScratch_answered (fun _ => bulkKey_error) h
  | blkKeyD1 => exact onScratch_answered (fun _ => bulkKey_error) h
  | blkKeyD2 => exact onScratch_answered (fun _ => bulkKey_error) h
  | blkKeyD3 => exact onScratch_answered (fun _ => bulkKey_error) h
  | blkKeyD4 => exact onScratch_answered (fun _ => bulkKey_error) h
  | blkEsc | blkRsvdKeyD5 | blkRsvdKeyD6D7 =>
    cases h
    exact .inl (State.answeredIn_withReply _ List.mem_cons_self)
  | _ => exact absurd hi Bool.false_ne_true

/-- Settles O52: it holds, by the cases of the instruction's channel. -/
theorem statusesReturned : Obligations.StatusesReturned := by
  intro i s t h
  obtain hi | hi | hi | hi := i.isEnc_or_isDec_or_bulk
  · exact .inl (exec_enc_answered hi h)
  · exact .inl (exec_dec_answered hi h)
  · exact .inl (exec_bulk_answered hi h)
  · exact (exec_bulkRecord_answered hi h).imp_right fun hreply => ⟨hi, hreply⟩

end Sys2Proof.Machine
end

section
/-! PROOFS. What writes the channels (R36 to R42, R60, R63, R136). Whatever the instruction, a channel is as before or one of its
few writers ran; every statement about a field of a channel is read from those cases. -/

namespace Sys2Proof.Machine

/-- What any instruction may have done to the encoder channel. -/
theorem exec_enc_writers {i : Instr} {s t : State} (h : exec i s = .next t) :
    t.enc = s.enc
    ∨ (∃ w, i = .encWord w ∧ s.enc.pos + (s.enc.record w).length ≤ s.limits.outCap
        ∧ t.answered .ok (.written (s.enc.record w).length) ∧ t.enc = s.enc.take w)
    ∨ (∃ v, i = .encSetStrength v ∧ v.toNat ≤ 31
        ∧ t.enc = { s.enc with strength := low5 v, win := Fifo.empty (v.toNat + 1) })
    ∨ (i = .encReset ∧ t.enc = { s.enc with win := Fifo.empty (s.enc.strength.toNat + 1) })
    ∨ (i = .encEmptyOutput ∧ t.enc = { s.enc with pos := 0 }) := by
  obtain hi | hi | hi | hi := i.isEnc_or_isDec_or_bulk
  · obtain ⟨r, rfl, -⟩ | ⟨w, hw, hroom, rfl⟩ | ⟨v, hv, hle, rfl⟩ | ⟨hreset, rfl⟩ | ⟨hrewind, rfl⟩ := exec_enc_cases hi h
    · exact .inl rfl
    · exact .inr (.inl ⟨w, hw, hroom, rfl, rfl⟩)
    · exact .inr (.inr (.inl ⟨v, hv, hle, rfl⟩))
    · exact .inr (.inr (.inr (.inl ⟨hreset, rfl⟩)))
    · exact .inr (.inr (.inr (.inr ⟨hrewind, rfl⟩)))
  · obtain ⟨henc, -⟩ := exec_dec_frame hi h
    exact .inl henc
  · obtain ⟨henc, -⟩ := exec_bulk_frame hi h
    exact .inl henc
  · obtain ⟨henc, -⟩ := exec_bulkRecord_frame hi h
    exact .inl henc

/-- `i` runs the reset record of strength `v`: as its row, or as DEC_WORD with its lead byte at the head of the queue. -/
abbrev State.RunsReset (s : State) (i : Instr) (v : BitVec 5) : Prop :=
  i = .resetRec v ∨ i = .decWord ∧ s.dec.input.head? = some (0xC0 ||| v.setWidth 8)

/-- What any instruction may have done to the decoder channel. -/
theorem exec_dec_writers {i : Instr} {s t : State} (h : exec i s = .next t) :
    t.dec = s.dec
    ∨ (∃ n w, t.dec = { s.dec.inConsume n with win := s.dec.win.insert w })
    ∨ (∃ (v : BitVec 5) (w : Word) (read rest : List Byte), s.RunsReset i v ∧ s.dec.input = read ++ rest
        ∧ t.answered .ok (.word w)
        ∧ t.dec = { strength := v, win := (Fifo.empty (v.toNat + 1)).insert w, input := rest })
    ∨ (∃ b, within (s.dec.input.length + b.length) s.limits.inCap = true
        ∧ t.dec = { s.dec with input := s.dec.input ++ b })
    ∨ (i = .decReset ∧ t.dec = { s.dec with win := Fifo.empty (s.dec.strength.toNat + 1) })
    ∨ (t.dec = { s.dec with input := [] }) := by
  obtain hi | hi | hi | hi := i.isEnc_or_isDec_or_bulk
  · obtain ⟨hdec, -⟩ := exec_enc_frame hi h
    exact .inl hdec
  · obtain ⟨r, rfl, -⟩ | ⟨n, w, rfl, -⟩ | ⟨v, w, read, rest, hin, hruns, rfl⟩ | ⟨b, -, hfits, rfl⟩ | ⟨hreset, rfl⟩
      | ⟨-, rfl⟩ := exec_dec_cases hi h
    · exact .inl rfl
    · exact .inr (.inl ⟨n, w, rfl⟩)
    · exact .inr (.inr (.inl ⟨v, w, read, rest, hruns, hin, rfl, rfl⟩))
    · exact .inr (.inr (.inr (.inl ⟨b, hfits, rfl⟩)))
    · exact .inr (.inr (.inr (.inr (.inl ⟨hreset, rfl⟩))))
    · exact .inr (.inr (.inr (.inr (.inr rfl))))
  · obtain ⟨-, hdec, -⟩ := exec_bulk_frame hi h
    exact .inl hdec
  · obtain ⟨-, hdec, -⟩ := exec_bulkRecord_frame hi h
    exact .inl hdec

theorem encStrength_writers {i : Instr} {s t : State} (h : exec i s = .next t)
    (hne : t.enc.strength ≠ s.enc.strength) : ∃ v : Byte, i = .encSetStrength v ∧ t.enc.strength = low5 v := by
  obtain henc | ⟨w, -, -, -, henc⟩ | ⟨v, rfl, -, henc⟩ | ⟨-, henc⟩ | ⟨-, henc⟩ := exec_enc_writers h
  case inr.inr.inl => exact ⟨v, rfl, congrArg Encoder.strength henc⟩
  -- No other writer of the encoder writes the strength.
  all_goals exact absurd (congrArg Encoder.strength henc) hne

theorem decStrength_writers {i : Instr} {s t : State} (h : exec i s = .next t)
    (hne : t.dec.strength ≠ s.dec.strength) : ∃ v : BitVec 5, t.dec.strength = v ∧ s.RunsReset i v := by
  obtain hdec | ⟨n, w, hdec⟩ | ⟨v, w, read, rest, hruns, -, -, hdec⟩ | ⟨b, -, hdec⟩ | ⟨-, hdec⟩ | hdec :=
    exec_dec_writers h
  case inr.inr.inl => exact ⟨v, congrArg Decoder.strength hdec, hruns⟩
  -- No other writer of the decoder writes the strength.
  all_goals exact absurd (congrArg Decoder.strength hdec) hne

/-- Settles O56: it holds, by the writers of each channel. -/
theorem strengthWriters : Obligations.StrengthWriters := fun _ _ _ h =>
  ⟨encStrength_writers h, decStrength_writers h⟩

/-- Settles O57: it holds, by the writers of the encoder. -/
theorem posWriters : Obligations.PosWriters := by
  intro i s t h hne
  obtain henc | ⟨w, rfl, -, hok, henc⟩ | ⟨v, -, -, henc⟩ | ⟨-, henc⟩ | ⟨rfl, henc⟩ := exec_enc_writers h
  case inr.inl => exact .inl ⟨w, _, rfl, hok, congrArg Encoder.pos henc⟩
  case inr.inr.inr.inr => exact .inr ⟨rfl, congrArg Encoder.pos henc⟩
  -- No other writer of the encoder writes the cursor.
  all_goals exact absurd (congrArg Encoder.pos henc) hne

theorem encCap_writers {i : Instr} {s t : State} (h : exec i s = .next t) (hne : t.enc.win.cap ≠ s.enc.win.cap) :
    (i = .encReset ∨ ∃ v, i = .encSetStrength v) ∧ t.enc.win = Fifo.empty t.enc.win.cap := by
  obtain henc | ⟨w, -, -, -, henc⟩ | ⟨v, rfl, -, henc⟩ | ⟨rfl, henc⟩ | ⟨-, henc⟩ := exec_enc_writers h
  · exact absurd (by rw [henc]) hne
  · exact absurd (by rw [henc, Encoder.take_win, Fifo.insert_cap]) hne
  · exact ⟨.inr ⟨v, rfl⟩, by rw [henc, Fifo.empty_cap]⟩
  · exact ⟨.inl rfl, by rw [henc, Fifo.empty_cap]⟩
  · exact absurd (by rw [henc]) hne

theorem decCap_writers {i : Instr} {s t : State} (h : exec i s = .next t) (hne : t.dec.win.cap ≠ s.dec.win.cap) :
    (i = .decReset ∧ t.dec.win = Fifo.empty t.dec.win.cap)
    ∨ ∃ v : BitVec 5, s.RunsReset i v ∧ t.dec.win.cap = v.toNat + 1
        ∧ ∃ w, t.answered .ok (.word w) ∧ t.dec.win = (Fifo.empty t.dec.win.cap).insert w := by
  obtain hdec | ⟨n, w, hdec⟩ | ⟨v, w, read, rest, hruns, -, hok, hdec⟩ | ⟨b, -, hdec⟩ | ⟨rfl, hdec⟩ | hdec :=
    exec_dec_writers h
  · exact absurd (by rw [hdec]) hne
  · exact absurd (by rw [hdec, Fifo.insert_cap]) hne
  · have hcap : t.dec.win.cap = v.toNat + 1 := by rw [hdec, Fifo.insert_cap, Fifo.empty_cap]
    exact .inr ⟨v, hruns, hcap, w, hok, by rw [hcap, hdec]⟩
  · exact absurd (by rw [hdec]) hne
  · exact .inl ⟨rfl, by rw [hdec, Fifo.empty_cap]⟩
  · exact absurd (by rw [hdec]) hne

/-- Settles O58: it holds, as an insert keeps the capacity and every other writer of a window clears it. -/
theorem capacityChangesOnlyByClear : Obligations.CapacityChangesOnlyByClear := fun _ _ _ h =>
  ⟨encCap_writers h, decCap_writers h⟩

/-- Settles O59: it holds, by the writers of the encoder, of which ENC_WORD alone writes bytes, those of its record. -/
theorem onlyEncWordWritesOutput : Obligations.OnlyEncWordWritesOutput := by
  intro i s t h
  obtain henc | ⟨w, rfl, -, -, henc⟩ | ⟨v, rfl, -, henc⟩ | ⟨rfl, henc⟩ | ⟨rfl, henc⟩ := exec_enc_writers h
  case inr.inl =>
    refine ⟨fun hother => absurd rfl (hother w), fun w' hw' a ha => ?_⟩
    cases hw'
    rw [henc, Encoder.take_out, Memory.read_writeBytes_outside s.enc.out s.enc.pos a _ ha]
  -- No other case writes `ENC_OUT`.
  all_goals exact ⟨fun _ a => by rw [henc], fun _ _ a _ => by rw [henc]⟩

end Sys2Proof.Machine
end

section
/-! PROOFS. The invariant of the block (R7, R34, R37, R38, R41, R42, R43): it holds after reset, each writer of a channel keeps the
channel's part, and from a legal state every instruction has a next state (R320). -/

namespace Sys2Proof.Machine

/-- Settles O48: it holds, as both windows are empty and nothing is written or queued. -/
theorem resetMeetsInvariant : Obligations.ResetMeetsInvariant := by
  intro c hc
  refine ⟨⟨Fifo.wf_empty_strength _, rfl, Nat.zero_le _, rfl, ?written, ?below⟩,
    ⟨Fifo.wf_empty_strength 0, rfl, ?queued⟩, rfl, hc⟩
  case written => exact fun a ha => absurd ha (Nat.not_lt_zero a)
  case below => exact fun _ hc => absurd hc List.not_mem_nil
  case queued => exact (within_iff _ _).2 fun _ _ => Nat.zero_le _

theorem Encoder.wf_take {e : Encoder} {outCap : Nat} (w : Word) (h : e.Wf outCap)
    (hroom : e.pos + (e.record w).length ≤ outCap) : (e.take w).Wf outCap := by
  obtain ⟨hwin, hcap, -, hcanon, hwritten, hbelow⟩ := h
  refine ⟨Fifo.wf_insert w hwin, (Fifo.insert_cap e.win w).trans hcap, hroom, Memory.wf_writeBytes _ _ hcanon,
    fun a ha => ?written, fun c hc => ?below⟩
  case written =>
    rw [Encoder.take_out, Memory.read_writeBytes]
    rw [Encoder.take_pos] at ha
    split
    case isTrue hin => rw [List.getElem?_eq_getElem (by omega), Option.isSome_some]
    case isFalse hout => exact hwritten a (by omega)
  case below =>
    obtain hnew | hold := Memory.mem_writeBytes hc
    · exact hnew.2.trans_le hroom
    · exact hbelow c hold

/-- An encoder whose window is cleared at the capacity of its strength is legal. -/
theorem Encoder.wf_clear {e : Encoder} {outCap : Nat} (v : BitVec 5) (h : e.Wf outCap) :
    ({ e with strength := v, win := Fifo.empty (v.toNat + 1) } : Encoder).Wf outCap := by
  obtain ⟨-, -, hout⟩ := h
  exact ⟨Fifo.wf_empty_strength v, rfl, hout⟩

theorem Encoder.wf_rewind {e : Encoder} {outCap : Nat} (h : e.Wf outCap) :
    ({ e with pos := 0 } : Encoder).Wf outCap := by
  obtain ⟨hwin, hcap, -, hcanon, -, hbelow⟩ := h
  exact ⟨hwin, hcap, Nat.zero_le _, hcanon, fun a ha => absurd ha (Nat.not_lt_zero a), hbelow⟩

theorem exec_keeps_encWf {i : Instr} {s t : State} (hs : s.enc.Wf s.limits.outCap) (h : exec i s = .next t) :
    t.enc.Wf s.limits.outCap := by
  obtain henc | ⟨w, -, hroom, -, henc⟩ | ⟨v, -, hv, henc⟩ | ⟨-, henc⟩ | ⟨-, henc⟩ := exec_enc_writers h
  · rwa [henc]
  · rw [henc]
    exact Encoder.wf_take w hs hroom
  · rw [henc, ← toNat_low5_of_le hv]
    exact Encoder.wf_clear (low5 v) hs
  · rw [henc]
    exact Encoder.wf_clear s.enc.strength hs
  · rw [henc]
    exact Encoder.wf_rewind hs

theorem within_of_le {n m : Nat} {limit : Option Nat} (h : n ≤ m) (hm : within m limit = true) :
    within n limit = true :=
  (within_iff n limit).2 fun c hc => h.trans ((within_iff m limit).1 hm c hc)

theorem exec_keeps_decWf {i : Instr} {s t : State} (hs : s.dec.Wf s.limits.inCap) (h : exec i s = .next t) :
    t.dec.Wf s.limits.inCap := by
  obtain ⟨hwin, hcap, hqueued⟩ := id hs
  obtain hdec | ⟨n, w, hdec⟩ | ⟨v, w, read, rest, -, hin, -, hdec⟩ | ⟨b, hfits, hdec⟩ | ⟨-, hdec⟩ | hdec :=
    exec_dec_writers h <;> rw [hdec]
  · exact hs
  · refine ⟨Fifo.wf_insert w hwin, (Fifo.insert_cap _ w).trans hcap, within_of_le ?_ hqueued⟩
    exact (List.drop_sublist n s.dec.input).length_le
  · refine ⟨Fifo.wf_insert w (Fifo.wf_empty_strength v), Fifo.insert_cap _ w, within_of_le ?_ hqueued⟩
    rw [hin]
    exact (List.sublist_append_right read rest).length_le
  · exact ⟨hwin, hcap, by rwa [List.length_append]⟩
  · exact ⟨Fifo.wf_empty_strength _, rfl, hqueued⟩
  · exact ⟨hwin, hcap, within_of_le (Nat.zero_le _) hqueued⟩

theorem exec_keeps_blkIdle {i : Instr} {s t : State} (hs : s.blk = Scratch.idle) (h : exec i s = .next t) :
    t.blk = Scratch.idle := by
  obtain hi | hi | hi | hi := i.isEnc_or_isDec_or_bulk
  · obtain ⟨-, hblk, -⟩ := exec_enc_frame hi h
    rw [hblk, hs]
  · obtain ⟨-, hblk, -⟩ := exec_dec_frame hi h
    rw [hblk, hs]
  · obtain ⟨-, -, hblk, -⟩ := exec_bulk_frame hi h
    rw [hblk, hs]
  · obtain ⟨r, rfl⟩ := exec_bulkRecord_idle hi hs h
    rfl

theorem exec_keeps_wf {i : Instr} {s t : State} (hs : s.Wf) (h : exec i s = .next t) : t.Wf := by
  obtain ⟨henc, hdec, hblk, hlimits⟩ := hs
  rw [State.Wf, exec_keeps_limits h]
  exact ⟨exec_keeps_encWf henc h, exec_keeps_decWf hdec h, exec_keeps_blkIdle hblk h, hlimits⟩

theorem step_keeps_wf {s t : State} (hs : s.Wf) (h : step s = .next t) : t.Wf := by
  obtain ⟨-, rfl⟩ | ⟨i, rest, -, hexec⟩ := step_cases h
  · exact hs
  · exact exec_keeps_wf (s := s.withPending rest) hs hexec

/-- Settles O49: it holds, part by part. -/
theorem stepKeepsInvariant : Obligations.StepKeepsInvariant :=
  ⟨fun _ _ => step_keeps_wf, fun _ _ _ => exec_keeps_wf⟩

/-- Settles O51: it holds, as a legal encoder has written every byte ENC_READ_OUT may read. -/
theorem everyCommandCompletes : Obligations.EveryCommandCompletes := by
  rintro i s ⟨⟨-, -, -, -, hwritten, -⟩, -⟩
  obtain hi | hi | hi | hi := i.isEnc_or_isDec_or_bulk
  · obtain ⟨e, r, he⟩ | ⟨off, len, -, hle, hnone, -⟩ := exec_enc_local i s hi
    · exact ⟨_, he s rfl rfl⟩
    · obtain ⟨b, hsome, -⟩ := Memory.readBytes_some (m := s.enc.out) (x := off) (len := len)
        fun a _ ha => hwritten a (ha.trans_le hle)
      cases hnone.symm.trans hsome
  · obtain ⟨d, r, hd⟩ := exec_dec_local i s hi
    exact ⟨_, hd s rfl rfl⟩
  · obtain ⟨r, hr⟩ := exec_bulk_local i s hi
    exact ⟨_, hr s rfl⟩
  · obtain ⟨sc, hsc⟩ | ⟨r, hr⟩ := exec_bulkRecord_cases i s hi
    · exact ⟨_, hsc⟩
    · exact ⟨_, hr⟩

end Sys2Proof.Machine
end

section
/-! PROOFS. Commands that repeat (R69, R304). An instruction that leaves its own channel as it was meets the same channel again, so
it gives the same reply; the commands that clear something leave nothing more to clear. -/

namespace Sys2Proof.Machine

theorem exec_enc_again {i : Instr} {s t : State} (hi : i.isEnc = true) (h : exec i s = .next t) (henc : t.enc = s.enc) :
    exec i t = .next t := by
  obtain ⟨e, r, he⟩ | ⟨_, _, _, _, _, hfault⟩ := exec_enc_local i s hi
  · cases h.symm.trans (he s rfl rfl)
    exact he _ henc rfl
  · cases h.symm.trans hfault

theorem exec_dec_again {i : Instr} {s t : State} (hi : i.isDec = true) (h : exec i s = .next t) (hdec : t.dec = s.dec) :
    exec i t = .next t := by
  obtain ⟨d, r, hd⟩ := exec_dec_local i s hi
  cases h.symm.trans (hd s rfl rfl)
  exact hd _ hdec rfl

/-- Settles O24: it holds, as a fatal status has left the decoder as it was. -/
theorem fatalStatusRepeats : Obligations.FatalStatusRepeats := by
  intro s t e r hexec hreply hfatal
  have herror : e ≠ .ok := by
    rintro rfl
    cases hfatal
  obtain ⟨⟨-, hdec, -⟩, -⟩ := errorsChangeNoState .decWord s t e r rfl hexec hreply herror
  exact exec_dec_again rfl hexec hdec

theorem exec_encReadOut_sameButReply {off len : Nat} {s t : State} (h : exec (.encReadOut off len) s = .next t) :
    t.sameButReply s := by
  obtain ⟨r, rfl, -⟩ | ⟨_, hi, -⟩ | ⟨_, hi, -⟩ | ⟨hi, -⟩ | ⟨hi, -⟩ := exec_enc_cases rfl h
  · exact s.sameButReply_withReply r
  all_goals cases hi

/-- Settles O60: it holds, as a clear leaves nothing to clear and a read leaves its channel as it was. -/
theorem idempotentCommands : Obligations.IdempotentCommands := by
  intro i s t h
  constructor
  · rintro (rfl | rfl | rfl | rfl) <;> cases h <;> rfl
  · rintro (⟨off, len, rfl⟩ | rfl | rfl)
    · have hsame := exec_encReadOut_sameButReply h
      exact ⟨hsame, exec_enc_again rfl h hsame.1⟩
    · cases h
      exact ⟨s.sameButReply_withReply _, rfl⟩
    · cases h
      exact ⟨s.sameButReply_withReply _, rfl⟩

end Sys2Proof.Machine
end
